-- ==== Sys2Proof/Config.lean ====
section
/-! DEFINITION. The implementation parameters of 00_scope.md R5 and the identity of R1. The widths stand as plain
numerals in the types of Word.lean, and a named test (Tests/Slice0.lean) ties them to these. `LAT(cmd)` is open (R5,
R94): it is no constant here, the stall marks of `Edge` (Machine/State.lean) leave it free at every single command. -/

namespace Sys2Proof.Config

/-- R1: the interface version the spec gives the block. -/
def interfaceVersion : Nat := 1

/-- R5: width in bits of the integer operands and of the result word. -/
def W : Nat := 32

/-- R5: width in bits of a character code. -/
def CW : Nat := 8

/-- R5: characters carried by one DECV command (W / CW). -/
def LANES : Nat := 4

/-- R5: width of a CharacterIndex and of the cached inverse. -/
def IW : Nat := 5

/-- R5: width of the instruction word `inst`. -/
def IWIDTH : Nat := 16

/-- R5: size of the Latin alphabet. -/
def nSmall : Nat := 26

/-- R5: size of the Latin + Ñ alphabet. -/
def nLarge : Nat := 27

end Sys2Proof.Config
end

