-- ==== Sys2Proof/Word.lean ====
section
/-! DEFINITION. The bit vectors of the block (00_scope.md R5, R7, R8; 30_encoding.md R43, R48). The readings of R8
are Lean's own: `uint(v)` is `v.toNat`, `sint(v)` is `v.toInt`, `bits_N(z)` is `BitVec.ofInt N z` (or `BitVec.ofNat`
for a natural number), `zext_N` is `BitVec.setWidth N`, and `x ++ y` is the concatenation with x more significant. -/

namespace Sys2Proof

/-- R5: an integer operand or the result word, 32 bits. -/
abbrev Word := BitVec 32

/-- R5, R13: a character code, 8 bits. -/
abbrev Byte := BitVec 8

/-- R5: a CharacterIndex or the cached inverse as stored, 5 bits. -/
abbrev IndexBits := BitVec 5

/-- R44: the instruction word `inst`, 16 bits. -/
abbrev InstWord := BitVec 16

/-- R43: the command bundle `cmd`, 112 bits: `opn`, `opb`, `opa`, `inst` from the most significant end. -/
abbrev Cmd := BitVec 112

end Sys2Proof
end

