-- ==== Sys2Proof/Syntax.lean ====
section
/-! DEFINITION. The seven commands of 30_encoding.md R47 with their operands as R46 reads them. An operand field or
bit that R46 ignores is no part of the syntax (93_implementation_defined.md U14). -/

namespace Sys2Proof

/-- The two alphabets (R15, R21, R60): the value of the variant select `s` of ENC and DEC and of `KEY.N`. -/
inductive Variant where
  | latin26   -- 0: the 26 letters of T26
  | latin27   -- 1: the 27 letters of T27
deriving DecidableEq, Repr

/-- The rows of the opcode map (R47). -/
inductive Opcode where
  | modinv | enc | dec | setkey | decc | decv | rdkey
deriving DecidableEq, Repr

/-- A command: one constructor per row of the opcode table. -/
inductive Instr where
  /-- `MODINV a, n` (R58). -/
  | modinv (a n : Word)
  /-- `ENC.26 c`, `ENC.27 c` (R63). -/
  | enc (v : Variant) (c : Byte)
  /-- `DEC.26 i`, `DEC.27 i` (R64). -/
  | dec (v : Variant) (i : Word)
  /-- `SETKEY a, b, n` (R66). -/
  | setkey (a b n : Word)
  /-- `DECC c` (R68). -/
  | decc (c : Byte)
  /-- `DECV lm, c0, c1, c2, c3` (R71): lane i holds a character of the text when bit i of `lm` is 1. -/
  | decv (lm : BitVec 4) (c0 c1 c2 c3 : Byte)
  /-- `RDKEY STATUS|A|B|N|AINV` (R74): the register number, 0 to 4. -/
  | rdkey (sel : BitVec 3)
deriving DecidableEq, Repr

/-- The opcode-map row a command belongs to. -/
def Instr.opcode : Instr → Opcode
  | .modinv _ _ => .modinv
  | .enc _ _ => .enc
  | .dec _ _ => .dec
  | .setkey _ _ _ => .setkey
  | .decc _ => .decc
  | .decv _ _ _ _ _ => .decv
  | .rdkey _ => .rdkey

end Sys2Proof
end

