-- ==== Sys2Proof/WellFormed.lean ====
section
/-! DEFINITION. Which commands have a legal encoding. The one constraint of the opcode table is RDKEY's `sel ≤ 4`
(30_encoding.md R47, R49); every other operand value is legal (R49: operand values never make a command illegal). -/

namespace Sys2Proof

/-- R47, R49: the key register number of RDKEY is 0 to 4; nothing else is constrained. -/
def Instr.wf : Instr → Bool
  | .modinv _ _ => true
  | .enc _ _ => true
  | .dec _ _ => true
  | .setkey _ _ _ => true
  | .decc _ => true
  | .decv _ _ _ _ _ => true
  | .rdkey sel => decide (sel ≤ 4#3)

end Sys2Proof
end

