-- ==== Sys2Proof/Decode.lean ====
section
/-! DEFINITION. Decoding a 112-bit command (30_encoding.md R43 to R47, R49), and after it the encoder, from the same
tables. Decoding is total: a command is one of the seven or is rejected by name. What the block does with a rejected
command (IllegalCommand, R80) is Machine/Command.lean's. -/

namespace Sys2Proof

/-- Why a command is illegal, one name for each case of R49. -/
inductive Reject where
  /-- `opc` = 0x00. -/
  | opcodeZero
  /-- `opc` in 0x08 .. 0xFF. -/
  | opcodeReserved
  /-- a field of `inst` that the command's format shows as 0 is not zero. -/
  | unusedFieldNotZero
  /-- RDKEY with `sel` in 5 .. 7. -/
  | registerReserved
deriving DecidableEq, Repr

/-! ### The fields of a command (R43) and of its instruction word (R44) -/

/-- R43: `cmd[15:0]`. -/
def instField (cmd : Cmd) : InstWord := cmd.extractLsb' 0 16

/-- R43: `cmd[47:16]`. -/
def opaField (cmd : Cmd) : Word := cmd.extractLsb' 16 32

/-- R43: `cmd[79:48]`. -/
def opbField (cmd : Cmd) : Word := cmd.extractLsb' 48 32

/-- R43: `cmd[111:80]`. -/
def opnField (cmd : Cmd) : Word := cmd.extractLsb' 80 32

/-- R44: `opc` = `inst[7:0]`. -/
def opcField (inst : InstWord) : BitVec 8 := inst.extractLsb' 0 8

/-- R44: `s` = `inst[8]`. -/
def sField (inst : InstWord) : Bool := inst.getLsbD 8

/-- R44: `sel` = `inst[11:9]`. -/
def selField (inst : InstWord) : BitVec 3 := inst.extractLsb' 9 3

/-- R44: `lm` = `inst[15:12]`. -/
def lmField (inst : InstWord) : BitVec 4 := inst.extractLsb' 12 4

/-- R35: lane i of a word is `v[8i+7 : 8i]`; lane 0 is the first character in text order. -/
def lane (v : Word) (i : Nat) : Byte := v.extractLsb' (8 * i) 8

/-- R44: the alphabet a variant select bit names: 0 the 26 letters, 1 the 27 letters. -/
def variantOfBit (s : Bool) : Variant := if s then .latin27 else .latin26

/-- R44, R17: the bit that stands for an alphabet in `inst[8]` and in `KEY.N`. -/
def variantBit : Variant → BitVec 1
  | .latin26 => 0#1
  | .latin27 => 1#1

/-! ### The opcode map (R47) -/

/-- R47: the row an opcode byte names, or why it names none (R49). -/
def opcodeOf (opc : BitVec 8) : Except Reject Opcode :=
  if opc = 0x00#8 then .error .opcodeZero
  else if opc = 0x01#8 then .ok .modinv
  else if opc = 0x02#8 then .ok .enc
  else if opc = 0x03#8 then .ok .dec
  else if opc = 0x04#8 then .ok .setkey
  else if opc = 0x05#8 then .ok .decc
  else if opc = 0x06#8 then .ok .decv
  else if opc = 0x07#8 then .ok .rdkey
  else .error .opcodeReserved

/-- R47: the column `mask`. -/
def rowMask : Opcode → InstWord
  | .modinv => 0xFFFF#16
  | .enc => 0xFEFF#16
  | .dec => 0xFEFF#16
  | .setkey => 0xFFFF#16
  | .decc => 0xFFFF#16
  | .decv => 0x0FFF#16
  | .rdkey => 0xF1FF#16

/-- R47: the column `match`. -/
def rowMatch : Opcode → InstWord
  | .modinv => 0x0001#16
  | .enc => 0x0002#16
  | .dec => 0x0003#16
  | .setkey => 0x0004#16
  | .decc => 0x0005#16
  | .decv => 0x0006#16
  | .rdkey => 0x0007#16

/-- R47, R49: a command is the named one when `(inst AND mask) = match` and, for RDKEY, `sel ≤ 4`. -/
def decodeInst (inst : InstWord) : Except Reject Opcode :=
  match opcodeOf (opcField inst) with
  | .error r => .error r
  | .ok o =>
    if inst &&& rowMask o ≠ rowMatch o then .error .unusedFieldNotZero
    else if o = .rdkey ∧ 4#3 < selField inst then .error .registerReserved
    else .ok o

/-- R46: the operands of a command, each read from its whole field. -/
def assembleOperands (cmd : Cmd) : Opcode → Instr
  | .modinv => .modinv (opaField cmd) (opnField cmd)
  | .enc => .enc (variantOfBit (sField (instField cmd))) (lane (opaField cmd) 0)
  | .dec => .dec (variantOfBit (sField (instField cmd))) (opaField cmd)
  | .setkey => .setkey (opaField cmd) (opbField cmd) (opnField cmd)
  | .decc => .decc (lane (opaField cmd) 0)
  | .decv => .decv (lmField (instField cmd)) (lane (opaField cmd) 0) (lane (opaField cmd) 1)
      (lane (opaField cmd) 2) (lane (opaField cmd) 3)
  | .rdkey => .rdkey (selField (instField cmd))

/-- The decoder: total on all 2^112 commands (R16, R49). -/
def decode (cmd : Cmd) : Except Reject Instr :=
  match decodeInst (instField cmd) with
  | .error r => .error r
  | .ok o => .ok (assembleOperands cmd o)

/-- The instruction whose `nbits` low bits are `w` and whose other bits (operand fields included) are 0: bit 0 of
`w` is `cmd[0]`, as in spec/opcode_table.json, where `inst` = `cmd[15:0]` is the first word. -/
def tableCmd (nbits w : Nat) : Cmd := BitVec.ofNat 112 (w % 2 ^ nbits)

/-- What the decoder reads from a word of the opcode table; none where it rejects. -/
def decodeTableWord (nbits w : Nat) : Option Instr :=
  match decode (tableCmd nbits w) with
  | .ok i => some i
  | .error _ => none

/-! ### The encoder (R43, R45, R53) -/

/-- R43: the four fields presented together. -/
def bundle (inst : InstWord) (opa opb opn : Word) : Cmd := opn ++ opb ++ opa ++ inst

/-- R45, R47: the instruction word of a command, field by field from the most significant end. -/
def encodeInst : Instr → InstWord
  | .modinv _ _ => 0x0001#16
  | .enc v _ => 0#7 ++ variantBit v ++ 0x02#8
  | .dec v _ => 0#7 ++ variantBit v ++ 0x03#8
  | .setkey _ _ _ => 0x0004#16
  | .decc _ => 0x0005#16
  | .decv lm _ _ _ _ => lm ++ 0x006#12
  | .rdkey sel => 0#4 ++ sel ++ 0#1 ++ 0x07#8

/-- R53: the columns `opa`, `opb`, `opn`: the assembler writes 0 in every ignored operand field. -/
def encode (i : Instr) : Cmd :=
  match i with
  | .modinv a n => bundle (encodeInst i) a 0 n
  | .enc _ c => bundle (encodeInst i) (c.setWidth 32) 0 0
  | .dec _ x => bundle (encodeInst i) x 0 0
  | .setkey a b n => bundle (encodeInst i) a b n
  | .decc c => bundle (encodeInst i) (c.setWidth 32) 0 0
  | .decv _ c0 c1 c2 c3 => bundle (encodeInst i) (c3 ++ c2 ++ c1 ++ c0) 0 0
  | .rdkey _ => bundle (encodeInst i) 0 0 0

end Sys2Proof
end

