-- ==== Sys2Proof/Machine/State.lean ====
section
/-! DEFINITION. The state of the block as plain data: the key slot (10_state.md R17), what is in progress on its
ports (70_reset_and_hazards.md R91), the inputs of the coming clock edges and the responses delivered so far (R95). -/

namespace Sys2Proof.Machine

/-- Why a step stops the machine: never. The spec's step is total and every error is a response (R16, R82, R93), so
there is no constructor and nobody raises one (safe: nothing is hidden by it; log entry 6). -/
inductive Fault where
deriving DecidableEq, Repr

/-- Why an instruction is given no meaning. -/
inductive Refusal where
  /-- Raised by `exec` alone, for a command with no meaning yet; no arm of `exec` raises it now (safe). -/
  | notModelled (mnemonic : String)
deriving DecidableEq, Repr

/-- The five errors of R75. -/
inductive Err where
  | notInvertible | invalidAlphabetSize | noKey | badModulus | illegalCommand
deriving DecidableEq, Repr

/-- R75, U15: the six values of the `status` field. -/
inductive Status where
  | ok
  | err (e : Err)
deriving DecidableEq, Repr

/-- R48: a response; `cnt` counts the valid result items of `res`. -/
structure Response where
  status : Status
  cnt    : BitVec 3
  res    : Word
deriving DecidableEq, Repr

/-- R17: the key slot while `KV` = 1: the registers `KEY.A`, `KEY.B`, `KEY.N`, `KEY.AINV`. -/
structure Key where
  a    : Word
  b    : Word
  n    : Variant
  ainv : IndexBits
deriving DecidableEq, Repr

/-- R91: what the block has in hand. -/
inductive Phase where
  /-- no command in progress and no response waiting: `cmd_ready` is high -/
  | idle
  /-- a command accepted and not yet complete -/
  | executing (cmd : Cmd)
  /-- a response waiting for delivery: `resp_valid` is high -/
  | responding (r : Response)
deriving DecidableEq, Repr

/-- What one rising edge of `clk` samples (R89, R91, R95), and the free value for the open latency (R94): `stall`
says that the command in progress needs at least one edge more. -/
structure Edge where
  rst       : Bool
  cmdValid  : Bool
  cmd       : Cmd
  respReady : Bool
  stall     : Bool
deriving DecidableEq, Repr

/-- The whole state. `key` is the architectural state (R17), `phase` what the handshake implies (R91); `edges` holds
the inputs of the coming clock edges, earliest first, and `delivered` the responses delivered so far, oldest first
(R95; both DESIGN CHOICE, log entry 1). -/
structure State where
  key       : Option Key
  phase     : Phase
  edges     : List Edge
  delivered : List Response
deriving DecidableEq, Repr

/-- R30, R89: after reset there is no key (`KV` = 0) and the block is ready for a command; no input is listed and
nothing has been delivered (DESIGN CHOICE, log entry 1). -/
def State.reset : State :=
  { key := none, phase := .idle, edges := [], delivered := [] }

end Sys2Proof.Machine
end

