-- ==== Sys2Proof/Machine/Ops.lean ====
section
/-! DEFINITION. The named operations over the state: the one home of each field's updates, how a command ends
(`respond`, `raise`), the arithmetic of 00_scope.md R9, the response bundle (30_encoding.md R48), and what a clock
edge does on the ports (70_reset_and_hazards.md R89, R91). -/

namespace Sys2Proof.Machine

/-! ### Arithmetic (R9, R11) -/

/-- R9: the r with 0 ≤ r < m and m dividing v − r, for m > 0 (no rule applies it with m ≤ 0). -/
abbrev emod (v m : Int) : Int := v % m

/-- R9: floor (v / m), for m > 0. -/
abbrev fdiv (v m : Int) : Int := v / m

/-! ### Updates of the state -/

/-- The key slot is replaced as a whole, never field by field (R24, R37, R42). -/
def State.withKey (s : State) (k : Option Key) : State := { s with key := k }

/-- The block goes to another phase of the handshake (R91). -/
def State.withPhase (s : State) (p : Phase) : State := { s with phase := p }

/-- One clock edge has passed: its inputs are used up. -/
def State.tick (s : State) : State := { s with edges := s.edges.tail }

/-! ### The end of a command (R14, R82) -/

/-- R14, R48: `respond(cnt = k, res = v)`: the command ends with status OK. -/
def respond (cnt : Nat) (res : Word) (s : State) : State :=
  s.withPhase (.responding { status := .ok, cnt := BitVec.ofNat 3 cnt, res := res })

/-- R14, R75, R82: `raise <Error>`: the command ends at once; no state is written and the response carries the
status code, `cnt` = 0 and `res` = 0. This is the block's whole error entry; there is no return from it (R83). -/
def raise (e : Err) (s : State) : State :=
  s.withPhase (.responding { status := .err e, cnt := 0#3, res := 0#32 })

/-- R63, R68: a result that may be absent: `cnt` = 1 with its value, or `cnt` = 0 and `res` = 0 (R12, R48, R84). -/
def respondOptional (v : Option Word) (s : State) : State :=
  match v with
  | some w => respond 1 w s
  | none => respond 0 0#32 s

/-! ### The response bundle (R48, R75) -/

/-- R75: the numbers of the errors. -/
def errCode : Err → BitVec 4
  | .notInvertible => 1#4
  | .invalidAlphabetSize => 2#4
  | .noKey => 3#4
  | .badModulus => 4#4
  | .illegalCommand => 5#4

/-- R75: the 4-bit `status` field. -/
def statusCode : Status → BitVec 4
  | .ok => 0#4
  | .err e => errCode e

/-- R48: the 39-bit bundle `resp`: `status` in [38:35], `cnt` in [34:32], `res` in [31:0]. -/
def respBits (r : Response) : BitVec 39 := statusCode r.status ++ r.cnt ++ r.res

/-- R72, R92 (d): the characters a host reads from the response of a DECC or DECV: the `cnt` low lanes, lane 0
first. -/
def outputOf (r : Response) : List Byte := (List.range r.cnt.toNat).map (lane r.res)

/-! ### The ports (R89, R91) -/

/-- What an edge samples when none is listed: no reset, no command, the host takes a waiting response (R93: it raises
`resp_ready` eventually), the command in progress completes. DESIGN CHOICE, log entry 3. -/
def quietEdge : Edge :=
  { rst := false, cmdValid := false, cmd := 0#112, respReady := true, stall := false }

/-- The inputs the next rising edge samples. -/
def State.edge (s : State) : Edge := s.edges.headD quietEdge

/-- R91: `cmd_ready`: no command in progress and no response waiting. The level while `rst` is sampled high is open
(R89 says only that nothing is accepted or sent); the phase alone decides it here. DESIGN CHOICE, log entry 11. -/
def cmdReady (s : State) : Bool :=
  match s.phase with
  | .idle => true
  | .executing _ => false
  | .responding _ => false

/-- R91: the response on the port while `resp_valid` is high (at an edge with `rst` high too: log entry 11). -/
def respOut (s : State) : Option Response :=
  match s.phase with
  | .idle => none
  | .executing _ => none
  | .responding r => some r

/-- R91: `resp_valid`. While `rst` is sampled high the phase alone decides it too (DESIGN CHOICE, log entry 11). -/
def respValid (s : State) : Bool := (respOut s).isSome

/-- R89: `rst` sampled high: `KV` ← 0, a command in progress or a response waiting is abandoned, nothing is accepted
or sent, and the block is ready afterwards. -/
def resetBlock (s : State) : State := (s.withKey none).withPhase .idle

/-- R91: at an idle edge a valid command is accepted; `cmd` is sampled here and only here (R91 (d)). -/
def accept (e : Edge) (s : State) : State :=
  if e.cmdValid then s.withPhase (.executing e.cmd) else s

/-- R91: the waiting response is taken by the host. -/
def deliver (r : Response) (s : State) : State :=
  { s with phase := .idle, delivered := s.delivered ++ [r] }

/-- R91: a waiting response is delivered at an edge at which `resp_ready` is high, and holds steady until then. -/
def offer (e : Edge) (r : Response) (s : State) : State :=
  if e.respReady then deliver r s else s

end Sys2Proof.Machine
end

