-- ==== Sys2Proof/Machine/Operands.lean ====
section
/-! DEFINITION. The operand and result forms: the selected lanes of DECV (30_encoding.md R46, 43_stream_filter_map.md
R71), the packing of its results, the alphabet size as an integer (10_state.md R21), and the key as integers and as
registers (42_affine_decode.md R66, R68). -/

namespace Sys2Proof.Machine

/-- R21: the integer n that an alphabet stands for. -/
def alphabetSize : Variant → Nat
  | .latin26 => 26
  | .latin27 => 27

/-- R21, R65: the alphabet of an integer n: none unless n is 26 or 27. -/
def variantOfSize (n : Int) : Option Variant :=
  if n = 26 then some .latin26 else if n = 27 then some .latin27 else none

/-- R46, R71: the characters of the lanes that `lm` selects, lane 0 first. -/
def selectLanes (lm : BitVec 4) (c0 c1 c2 c3 : Byte) : List Byte :=
  (if lm.getLsbD 0 then [c0] else []) ++ (if lm.getLsbD 1 then [c1] else []) ++
  (if lm.getLsbD 2 then [c2] else []) ++ (if lm.getLsbD 3 then [c3] else [])

/-- R71: the results packed toward lane 0 in order, the bytes above them 0. -/
def packLanes : List Byte → Word
  | [] => 0#32
  | b :: bs => (packLanes bs <<< 8) ||| b.setWidth 32

/-- R15: the AffineKey (a, b, n) with its derived field a_inv, as mathematical integers. -/
structure AffineKey where
  a    : Int
  b    : Int
  n    : Variant
  aInv : Int
deriving DecidableEq, Repr

/-- R66: the four registers as SETKEY writes them. -/
def storeKey (k : AffineKey) : Key :=
  { a := BitVec.ofInt 32 k.a, b := BitVec.ofInt 32 k.b, n := k.n, ainv := BitVec.ofInt 5 k.aInv }

/-- R68, R71: `k <- (sint(KEY.A), sint(KEY.B), n of KEY.N, uint(KEY.AINV))`. -/
def loadKey (k : Key) : AffineKey :=
  { a := k.a.toInt, b := k.b.toInt, n := k.n, aInv := k.ainv.toNat }

end Sys2Proof.Machine
end

