-- ==== Sys2Proof/Machine/AlphabetCodec.lean ====
section
/-! DEFINITION. The two alphabet tables (20_memory.md R31, R32), the alphabet codec unit, and ENC and DEC
(41_alphabet_codec.md). The tables are constants, no part of the state (10_state.md R25 (a)). -/

namespace Sys2Proof.Machine

/-- R31: T26, the letters A to Z. -/
def t26 : List Byte :=
  [0x41#8, 0x42#8, 0x43#8, 0x44#8, 0x45#8, 0x46#8, 0x47#8, 0x48#8, 0x49#8, 0x4A#8, 0x4B#8, 0x4C#8, 0x4D#8,
   0x4E#8, 0x4F#8, 0x50#8, 0x51#8, 0x52#8, 0x53#8, 0x54#8, 0x55#8, 0x56#8, 0x57#8, 0x58#8, 0x59#8, 0x5A#8]

/-- R32: T27, the letters A to Z with Ñ (0xD1) at index 14. -/
def t27 : List Byte :=
  [0x41#8, 0x42#8, 0x43#8, 0x44#8, 0x45#8, 0x46#8, 0x47#8, 0x48#8, 0x49#8, 0x4A#8, 0x4B#8, 0x4C#8, 0x4D#8, 0x4E#8,
   0xD1#8, 0x4F#8, 0x50#8, 0x51#8, 0x52#8, 0x53#8, 0x54#8, 0x55#8, 0x56#8, 0x57#8, 0x58#8, 0x59#8, 0x5A#8]

/-- R33: the table of an alphabet. -/
def table : Variant → List Byte
  | .latin26 => t26
  | .latin27 => t27

/-- R59: `up(c)`, upper-casing of the 27 lower-case letters; every other code is left alone. -/
def up (c : Byte) : Byte :=
  if 0x61#8 ≤ c ∧ c ≤ 0x7A#8 then c - 0x20#8
  else if c = 0xF1#8 then 0xD1#8
  else c

/-- R60: `enc(s, c)`, the index of a character, absent for a code that is no letter of the alphabet. -/
def enc (v : Variant) (c : Byte) : Option Nat :=
  match v with
  | .latin26 => if 0x41#8 ≤ up c ∧ up c ≤ 0x5A#8 then some ((up c).toNat - 0x41) else none
  | .latin27 =>
    if 0x41#8 ≤ up c ∧ up c ≤ 0x4E#8 then some ((up c).toNat - 0x41)
    else if up c = 0xD1#8 then some 14
    else if 0x4F#8 ≤ up c ∧ up c ≤ 0x5A#8 then some ((up c).toNat - 0x41 + 1)
    else none

/-- R34, R61: `dec(s, i)`, the table entry at emod(i, n); total, since the address lies in the table. -/
def dec (v : Variant) (i : Int) : Byte := (table v).getD (emod i (alphabetSize v)).toNat 0#8

/-- R63: ENC. It reads and writes no state. -/
def execEnc (v : Variant) (c : Byte) (s : State) : Host.Outcome State Fault Refusal :=
  .next (respondOptional ((enc v c).map fun i => (BitVec.ofNat 5 i).setWidth 32) s)

/-- R64: DEC. It reads and writes no state. -/
def execDec (v : Variant) (i : Word) (s : State) : Host.Outcome State Fault Refusal :=
  .next (respond 1 ((dec v i.toInt).setWidth 32) s)

end Sys2Proof.Machine
end

