-- ==== Sys2Proof/Machine/ModInverse.lean ====
section
/-! DEFINITION. The modular inverse unit and MODINV (40_modular_inverse.md). -/

namespace Sys2Proof.Machine

/-- R56: the loop of the extended Euclidean algorithm, from (r0, r1, t0, t1) to the final (r0, t0). `fuel` bounds the
number of rounds; r1 strictly decreases (R57 (b)), so the n of the caller is enough. -/
def eeaLoop : Nat → Int → Int → Int → Int → Int × Int
  | 0, r0, _, t0, _ => (r0, t0)
  | fuel + 1, r0, r1, t0, t1 =>
    if r1 = 0 then (r0, t0)
    else eeaLoop fuel r1 (r0 - fdiv r0 r1 * r1) t1 (t0 - fdiv r0 r1 * t1)

/-- R56: `eea_inverse(a, n)`, for n ≥ 2. -/
def eeaInverse (a n : Int) : Except Err Int :=
  if (eeaLoop n.toNat n (emod a n) 0 1).1 ≠ 1 then .error .notInvertible
  else .ok (emod (eeaLoop n.toNat n (emod a n) 0 1).2 n)

/-- R55: `modinv(a, n)` for any integers. -/
def modinv (a n : Int) : Except Err Int :=
  if n ≤ 1 then .error .badModulus else eeaInverse a n

/-- R58: MODINV. It neither reads nor writes the key slot. -/
def execModinv (a n : Word) (s : State) : Host.Outcome State Fault Refusal :=
  match modinv a.toInt n.toInt with
  | .error e => .next (raise e s)
  | .ok x => .next (respond 1 (BitVec.ofInt 32 x) s)

end Sys2Proof.Machine
end

