-- ==== Sys2Proof/Machine/AffineDecode.lean ====
section
/-! DEFINITION. The affine decode unit, SETKEY and DECC (42_affine_decode.md). -/

namespace Sys2Proof.Machine

/-- R65: `make_key(a, b, n)`: the alphabet size is checked first, then the inverse is taken. -/
def makeKey (a b n : Int) : Except Err AffineKey :=
  match variantOfSize n with
  | none => .error .invalidAlphabetSize
  | some v =>
    match modinv a n with
    | .error e => .error e
    | .ok x => .ok { a := a, b := b, n := v, aInv := x }

/-- R66: SETKEY. A success writes the whole key slot and answers a_inv; a failure clears `KV` and raises. -/
def execSetkey (a b n : Word) (s : State) : Host.Outcome State Fault Refusal :=
  match makeKey a.toInt b.toInt n.toInt with
  | .error e => .next (raise e (s.withKey none))
  | .ok k => .next (respond 1 ((BitVec.ofInt 5 k.aInv).setWidth 32) (s.withKey (some (storeKey k))))

/-- R67: mi = emod(a_inv · (ci + n − b), n), on mathematical integers. -/
def decodeIndex (k : AffineKey) (ci : Nat) : Int :=
  emod (k.aInv * ((ci : Int) + alphabetSize k.n - k.b)) (alphabetSize k.n)

/-- R67: `decode_char(k, c)`. -/
def decodeChar (k : AffineKey) (c : Byte) : Option Byte :=
  match enc k.n c with
  | none => none
  | some ci => some (dec k.n (decodeIndex k ci))

/-- R68: DECC. -/
def execDecc (c : Byte) (s : State) : Host.Outcome State Fault Refusal :=
  match s.key with
  | none => .next (raise .noKey s)
  | some k => .next (respondOptional ((decodeChar (loadKey k) c).map fun m => m.setWidth 32) s)

end Sys2Proof.Machine
end

