-- ==== Sys2Proof/Machine/Flags.lean ====
section
/-! DEFINITION. The one status flag, `KV` (10_state.md R18, R28): there are no condition codes and no sticky error
flag. It is set and cleared by `State.withKey` alone. -/

namespace Sys2Proof.Machine

/-- R17, R18: `KV`, 1 when the key slot holds a valid key. -/
def kv (s : State) : Bool := s.key.isSome

/-- R29, R74: the key register STATUS: bit 0 is `KV`, the other bits are 0. -/
def statusWord (s : State) : Word := (BitVec.ofBool (kv s)).setWidth 32

end Sys2Proof.Machine
end

