-- ==== Sys2Proof/Machine/KeyRead.lean ====
section
/-! DEFINITION. The state read, RDKEY (44_system.md R74; the register map is 10_state.md R29). -/

namespace Sys2Proof.Machine

/-- R29, R74: the word of key register `sel` of a valid key; absent for a number that names none of the four. -/
def keyRegister (sel : BitVec 3) (k : Key) : Option Word :=
  if sel = 1#3 then some k.a
  else if sel = 2#3 then some k.b
  else if sel = 3#3 then some (BitVec.ofNat 32 (alphabetSize k.n))
  else if sel = 4#3 then some (k.ainv.setWidth 32)
  else none

/-- R74: RDKEY. A reserved number is IllegalCommand before anything else; STATUS never fails; the four registers need
a key. -/
def execRdkey (sel : BitVec 3) (s : State) : Host.Outcome State Fault Refusal :=
  if 4#3 < sel then .next (raise .illegalCommand s)
  else if sel = 0#3 then .next (respond 1 (statusWord s) s)
  else
    match s.key with
    | none => .next (raise .noKey s)
    | some k =>
      match keyRegister sel k with
      | some w => .next (respond 1 w s)
      | none => .next (raise .illegalCommand s)

end Sys2Proof.Machine
end

