-- ==== Sys2Proof/Machine/StreamFilter.lean ====
section
/-! DEFINITION. The stream filter-map unit and DECV (43_stream_filter_map.md). -/

namespace Sys2Proof.Machine

/-- R70: `decode_text(k, text)`: every character decoded in order, the absent results dropped. -/
def decodeText (k : AffineKey) (text : List Byte) : List Byte := text.filterMap (decodeChar k)

/-- R71: DECV. -/
def execDecv (lm : BitVec 4) (c0 c1 c2 c3 : Byte) (s : State) : Host.Outcome State Fault Refusal :=
  match s.key with
  | none => .next (raise .noKey s)
  | some k =>
    let out := decodeText (loadKey k) (selectLanes lm c0 c1 c2 c3)
    .next (respond out.length (packLanes out) s)

end Sys2Proof.Machine
end

