-- ==== Sys2Proof/Machine/Dispatch.lean ====
section
/-! DEFINITION. One arm per command (30_encoding.md R47). -/

namespace Sys2Proof.Machine

def exec (i : Instr) (s : State) : Host.Outcome State Fault Refusal :=
  match i with
  | .modinv a n => Sys2Proof.Machine.execModinv a n s
  | .enc v c => Sys2Proof.Machine.execEnc v c s
  | .dec v x => Sys2Proof.Machine.execDec v x s
  | .setkey a b n => Sys2Proof.Machine.execSetkey a b n s
  | .decc c => Sys2Proof.Machine.execDecc c s
  | .decv lm c0 c1 c2 c3 => Sys2Proof.Machine.execDecv lm c0 c1 c2 c3 s
  | .rdkey sel => Sys2Proof.Machine.execRdkey sel s

end Sys2Proof.Machine
end

