-- ==== Sys2Proof/Machine/Command.lean ====
section
/-! DEFINITION. The execution of one whole command as presented (00_scope.md R16, 30_encoding.md R49), and the host's
transaction with it: present a command, take its response (70_reset_and_hazards.md R91, R95). -/

namespace Sys2Proof.Machine

/-- R16, R49, R80: a legal command has its effect; any other raises IllegalCommand and its operands are not looked
at. -/
def executeCommand (cmd : Cmd) (s : State) : Host.Outcome State Fault Refusal :=
  match decode cmd with
  | .ok i => exec i s
  | .error _ => .next (raise .illegalCommand s)

/-- R95: one transaction at the level of whole commands: the command is executed and the host takes the response. -/
def transact (i : Instr) (s : State) : Option (State × Response) :=
  match exec i s with
  | .next t =>
    match respOut t with
    | some r => some (deliver r t, r)
    | none => none
  | .fault _ => none
  | .refused _ => none

/-- R72: what the host appends to its output for a command's response: the `cnt` low lanes for DECC and DECV. R72
speaks of those two commands alone; that nothing is appended for the other five is read from the host outputs of
95_test_vectors.md P1 and P2 (DEDUCED, log entry 12). -/
def appended (i : Instr) (r : Response) : List Byte :=
  match i with
  | .modinv _ _ => []
  | .enc _ _ => []
  | .dec _ _ => []
  | .setkey _ _ _ => []
  | .decc _ => outputOf r
  | .decv _ _ _ _ _ => outputOf r
  | .rdkey _ => []

/-- R72, R95: the host presents commands in order and collects its output in command order (for a command other than
DECC and DECV nothing: log entry 12). -/
def session : List Instr → State → Option (State × List Byte)
  | [], s => some (s, [])
  | i :: is, s =>
    match transact i s with
    | none => none
    | some (t, r) =>
      match session is t with
      | none => none
      | some (u, out) => some (u, appended i r ++ out)

end Sys2Proof.Machine
end

