-- ==== Sys2Proof/Machine/Step.lean ====
section
/-! DEFINITION. One step: one rising edge of `clk` (70_reset_and_hazards.md R89, R91). The edge at which a command in
progress completes runs the whole command at once (00_scope.md R16). -/

namespace Sys2Proof.Machine

/-- R89: reset comes before everything. R91: an idle block accepts, a busy one completes its command (or, while the
open latency lasts, R94, stays busy), and a waiting response is offered. -/
def step (s : State) : Host.Outcome State Fault Refusal :=
  if s.edge.rst then .next (resetBlock s.tick)
  else
    match s.phase with
    | .idle => .next (accept s.edge s.tick)
    | .executing cmd => if s.edge.stall then .next s.tick else executeCommand cmd s.tick
    | .responding r => .next (offer s.edge r s.tick)

/-- `s` with a command in progress that completes at the next edge: the block fetches nothing (R27, R41), so the
instruction stands where an accepted command stands, and the next edge neither resets nor stalls (log entry 7). -/
def State.withFetchWord (s : State) (nbits w : Nat) : State :=
  { s with phase := .executing (tableCmd nbits w), edges := quietEdge :: s.edges }

end Sys2Proof.Machine
end

