-- ==== Sys2Proof/Machine/Assembler.lean ====
section
/-! DEFINITION. The lines of the assembler (30_encoding.md R53) and the pseudo-instruction DECS (R54), as abstract
lines of integers and character codes, with one spelling of each. -/

namespace Sys2Proof.Machine

/-- R53, R74: the names of the key registers. -/
inductive KeyRegister where
  | status | a | b | n | ainv
deriving DecidableEq, Repr

/-- R53, R54: one line of a program. -/
inductive AsmLine where
  | modinv (a n : Int)
  | enc (v : Variant) (c : Byte)
  | dec (v : Variant) (i : Int)
  | setkey (a b n : Int)
  | decc (c : Byte)
  | decv (lm : BitVec 4) (c0 c1 c2 c3 : Byte)
  | rdkey (r : KeyRegister)
  | decs (text : List Byte)
deriving DecidableEq, Repr

/-- R29: the number of a key register. -/
def keyRegisterNumber : KeyRegister → BitVec 3
  | .status => 0#3
  | .a => 1#3
  | .b => 2#3
  | .n => 3#3
  | .ainv => 4#3

/-- R54: the DECV commands of `DECS "text"`: four characters a command, in lanes 0 upward; the last command marks
only the lanes it fills and holds 0 in the others; the empty text expands to no command. -/
def expandDecs : List Byte → List Instr
  | c0 :: c1 :: c2 :: c3 :: rest => .decv 0b1111#4 c0 c1 c2 c3 :: expandDecs rest
  | [c0, c1, c2] => [.decv 0b0111#4 c0 c1 c2 0#8]
  | [c0, c1] => [.decv 0b0011#4 c0 c1 0#8 0#8]
  | [c0] => [.decv 0b0001#4 c0 0#8 0#8 0#8]
  | [] => []

/-- R53: the commands a line stands for. -/
def assemble : AsmLine → List Instr
  | .modinv a n => [.modinv (BitVec.ofInt 32 a) (BitVec.ofInt 32 n)]
  | .enc v c => [.enc v c]
  | .dec v i => [.dec v (BitVec.ofInt 32 i)]
  | .setkey a b n => [.setkey (BitVec.ofInt 32 a) (BitVec.ofInt 32 b) (BitVec.ofInt 32 n)]
  | .decc c => [.decc c]
  | .decv lm c0 c1 c2 c3 => [.decv lm c0 c1 c2 c3]
  | .rdkey r => [.rdkey (keyRegisterNumber r)]
  | .decs text => expandDecs text

/-! ### The spelling of a line (R53) -/

/-- R53: an integer in decimal, with a minus sign when negative. -/
def spellInt (z : Int) : List Char := (if z < 0 then ['-'] else []) ++ Nat.toDigits 10 z.natAbs

/-- R53: a character operand as a code `0xNN`. -/
def spellCode (c : Byte) : List Char := ['0', 'x', Nat.digitChar (c.toNat / 16), Nat.digitChar (c.toNat % 16)]

/-- R53: a lane mask as four binary digits, `lm[3]` first. -/
def spellMask (lm : BitVec 4) : List Char :=
  ['0', 'b'] ++ [3, 2, 1, 0].map fun i => if lm.getLsbD i then '1' else '0'

/-- R53: operands are separated by a comma and a space. -/
def spellOperands : List (List Char) → List Char
  | [] => []
  | [x] => x
  | x :: xs => x ++ [',', ' '] ++ spellOperands xs

/-- R53: the variant suffix, mandatory on ENC and DEC. -/
def spellVariant : Variant → List Char
  | .latin26 => ['.', '2', '6']
  | .latin27 => ['.', '2', '7']

/-- R53, R54: a line of a program; a text is written in quotes, its characters those of the same code point (R13). -/
def spell : AsmLine → List Char
  | .modinv a n => ['M', 'O', 'D', 'I', 'N', 'V', ' '] ++ spellOperands [spellInt a, spellInt n]
  | .enc v c => ['E', 'N', 'C'] ++ spellVariant v ++ [' '] ++ spellCode c
  | .dec v i => ['D', 'E', 'C'] ++ spellVariant v ++ [' '] ++ spellInt i
  | .setkey a b n => ['S', 'E', 'T', 'K', 'E', 'Y', ' '] ++ spellOperands [spellInt a, spellInt b, spellInt n]
  | .decc c => ['D', 'E', 'C', 'C', ' '] ++ spellCode c
  | .decv lm c0 c1 c2 c3 => ['D', 'E', 'C', 'V', ' '] ++
      spellOperands [spellMask lm, spellCode c0, spellCode c1, spellCode c2, spellCode c3]
  | .rdkey .status => ['R', 'D', 'K', 'E', 'Y', ' ', 'S', 'T', 'A', 'T', 'U', 'S']
  | .rdkey .a => ['R', 'D', 'K', 'E', 'Y', ' ', 'A']
  | .rdkey .b => ['R', 'D', 'K', 'E', 'Y', ' ', 'B']
  | .rdkey .n => ['R', 'D', 'K', 'E', 'Y', ' ', 'N']
  | .rdkey .ainv => ['R', 'D', 'K', 'E', 'Y', ' ', 'A', 'I', 'N', 'V']
  | .decs text => ['D', 'E', 'C', 'S', ' ', '"'] ++ text.map (fun c => Char.ofNat c.toNat) ++ ['"']

/-- R72: the characters of a text that a command presents, in text order. -/
def presented : Instr → List Byte
  | .modinv _ _ => []
  | .enc _ _ => []
  | .dec _ _ => []
  | .setkey _ _ _ => []
  | .decc c => [c]
  | .decv lm c0 c1 c2 c3 => selectLanes lm c0 c1 c2 c3
  | .rdkey _ => []

end Sys2Proof.Machine
end

