-- ==== Sys2Proof/Safety.lean ====
section
/-! DEFINITION. The terms claims are stated in: the key invariant (10_state.md R23), what a well-formed response is
(30_encoding.md R48, 60_exceptions.md R75), the invariant of the whole state, and the legal instruction words
(30_encoding.md R49). -/

namespace Sys2Proof.Machine

/-- R23: n is 26 or 27 by its type; gcd(KEY.A, n) = 1; 1 ≤ KEY.AINV < n; emod(KEY.A · KEY.AINV, n) = 1. -/
abbrev KeyValid (k : Key) : Prop :=
  Int.gcd k.a.toInt (alphabetSize k.n) = 1 ∧
  1 ≤ k.ainv.toNat ∧ k.ainv.toNat < alphabetSize k.n ∧
  emod (k.a.toInt * k.ainv.toNat) (alphabetSize k.n) = 1

/-- R23 for the key slot: a key, if there is one, is valid. -/
def SlotValid (slot : Option Key) : Prop := ∀ k, slot = some k → KeyValid k

/-- R48, R75: an error response has `cnt` = 0; `cnt` is 0 .. 4; whenever `cnt` = 0, `res` = 0. -/
abbrev ResponseValid (r : Response) : Prop :=
  (r.status ≠ .ok → r.cnt = 0#3) ∧ r.cnt ≤ 4#3 ∧ (r.cnt = 0#3 → r.res = 0#32)

/-- The invariant of the state: the key slot is valid and every response, waiting or delivered, is well-formed. -/
def StateValid (s : State) : Prop :=
  SlotValid s.key ∧ (∀ r, s.phase = .responding r → ResponseValid r) ∧ ∀ r ∈ s.delivered, ResponseValid r

/-- R49: the 28 legal values of `inst`. -/
def legalInst : List InstWord :=
  [0x0001#16, 0x0002#16, 0x0102#16, 0x0003#16, 0x0103#16, 0x0004#16, 0x0005#16] ++
  [0x0006#16, 0x1006#16, 0x2006#16, 0x3006#16, 0x4006#16, 0x5006#16, 0x6006#16, 0x7006#16,
   0x8006#16, 0x9006#16, 0xA006#16, 0xB006#16, 0xC006#16, 0xD006#16, 0xE006#16, 0xF006#16] ++
  [0x0007#16, 0x0207#16, 0x0407#16, 0x0607#16, 0x0807#16]

/-- R24: the one command that may write the key slot. -/
def isSetkey : Instr → Bool
  | .setkey _ _ _ => true
  | .modinv _ _ => false
  | .enc _ _ => false
  | .dec _ _ => false
  | .decc _ => false
  | .decv _ _ _ _ _ => false
  | .rdkey _ => false

/-- R72: the commands a host may send the characters of a text with. -/
def isDecode : Instr → Bool
  | .decc _ => true
  | .decv _ _ _ _ _ => true
  | .modinv _ _ => false
  | .enc _ _ => false
  | .dec _ _ => false
  | .setkey _ _ _ => false
  | .rdkey _ => false

/-- R69 (b), 95_test_vectors.md section 2.3: the forward oracle C = emod(a·M + b, n), not a command of the block. -/
def encryptIndex (k : Key) (m : Nat) : Nat :=
  (emod (k.a.toInt * m + k.b.toInt) (alphabetSize k.n)).toNat

/-- R73 (f): the affine encryption of one character: a letter by the forward oracle, a non-letter left in place. -/
def encryptChar (k : Key) (c : Byte) : Byte :=
  match enc k.n c with
  | none => c
  | some m => dec k.n (encryptIndex k m)

/-- The response a command leaves on the port. -/
def answerOf (i : Instr) (s : State) : Option Response :=
  match exec i s with
  | .next t => respOut t
  | .fault _ => none
  | .refused _ => none

/-- A command answers with error `e` (R75). -/
def Raises (e : Err) (i : Instr) (s : State) : Prop := ∃ r, answerOf i s = some r ∧ r.status = .err e

end Sys2Proof.Machine
end

