-- ==== Sys2Proof/Certificates/Slice0/Obligations.lean ====
section
/-! DEFINITION. The statements for the provers, taken from the numbered rules of spec/. In all of them
`s.withPhase (.responding ⟨st, cnt, res⟩)` is the whole next state: nothing of `s` has changed but the response on the
port, so each such statement is also its command's frame. That the coming edges' inputs and the delivered responses
are fields of the state, and the latency a mark on an edge, is the model's choice (log entries 1 and 2): a statement
that speaks of `edge`, `edges`, `tick` or `delivered` rests on it. That `cmdReady`, `respOut` and `respValid` do not
look at `rst` is the model's choice too (log entry 11). -/

open Sys2Proof Sys2Proof.Machine

/-! ### The step -/

/-- R16, R93: the step is total: it answers a next state in every state. -/
def Obligations.StepAlwaysAnswersANextState : Prop :=
  ∀ s : State, ∃ t, step s = .next t

/-- R16, R91: at the edge at which a command in progress completes, the step is the meaning of the decoded command,
which is well-formed, on the state whose edge has passed. -/
def Obligations.StepRunsTheDecodedCommand : Prop :=
  ∀ (s : State) (cmd : Cmd) (i : Instr),
    s.phase = .executing cmd → s.edge.rst = false → s.edge.stall = false → decode cmd = .ok i →
      i.wf = true ∧ step s = exec i s.tick

/-- R80: an `inst` that is none of the 28 legal values raises IllegalCommand, code 5: no state effect, whatever the
operands. -/
def Obligations.IllegalCommandsAreAnswered : Prop :=
  errCode .illegalCommand = 5#4 ∧
  ∀ (inst : InstWord) (opa opb opn : Word) (s : State), inst ∉ legalInst →
    executeCommand (bundle inst opa opb opn) s =
      .next (s.withPhase (.responding ⟨.err .illegalCommand, 0#3, 0#32⟩))

/-! ### Encoding -/

/-- R53: commands written out from the spec's table decode to what they stand for. -/
def Obligations.TheSpecsWordsDecode : Prop :=
  decode (bundle 0x0001#16 0x00000005#32 0#32 0x0000001A#32) = .ok (.modinv 5#32 26#32) ∧
  decode (bundle 0x0102#16 0x000000D1#32 0#32 0#32) = .ok (.enc .latin27 0xD1#8) ∧
  decode (bundle 0x0003#16 0xFFFFFFFF#32 0#32 0#32) = .ok (.dec .latin26 0xFFFFFFFF#32) ∧
  decode (bundle 0x0004#16 0x00000005#32 0x00000008#32 0x0000001A#32) = .ok (.setkey 5#32 8#32 26#32) ∧
  decode (bundle 0x0005#16 0xABCDEF49#32 0#32 0#32) = .ok (.decc 0x49#8) ∧
  decode (bundle 0xA006#16 0x49204A49#32 0#32 0#32) = .ok (.decv 0b1010#4 0x49#8 0x4A#8 0x20#8 0x49#8) ∧
  decode (bundle 0x0807#16 0#32 0#32 0#32) = .ok (.rdkey 4#3)

/-- R43, R45, R46: every legal instruction word reads its operands from whole fields, and the bits its row ignores
have no part in the decoded command. -/
def Obligations.OperandsAreReadFromTheirFields : Prop :=
  ∀ opa opb opn : Word,
    decode (bundle 0x0001#16 opa opb opn) = .ok (.modinv opa opn) ∧
    decode (bundle 0x0002#16 opa opb opn) = .ok (.enc .latin26 (opa.extractLsb' 0 8)) ∧
    decode (bundle 0x0102#16 opa opb opn) = .ok (.enc .latin27 (opa.extractLsb' 0 8)) ∧
    decode (bundle 0x0003#16 opa opb opn) = .ok (.dec .latin26 opa) ∧
    decode (bundle 0x0103#16 opa opb opn) = .ok (.dec .latin27 opa) ∧
    decode (bundle 0x0004#16 opa opb opn) = .ok (.setkey opa opb opn) ∧
    decode (bundle 0x0005#16 opa opb opn) = .ok (.decc (opa.extractLsb' 0 8)) ∧
    (∀ lm : BitVec 4, decode (bundle (lm ++ 0x006#12) opa opb opn) =
      .ok (.decv lm (opa.extractLsb' 0 8) (opa.extractLsb' 8 8) (opa.extractLsb' 16 8) (opa.extractLsb' 24 8))) ∧
    (∀ sel : BitVec 3, sel ≤ 4#3 →
      decode (bundle (BitVec.ofNat 16 (0x0007 + 0x0200 * sel.toNat)) opa opb opn) = .ok (.rdkey sel))

/-- R49: a command is legal exactly when its `inst` is one of the 28 values; the operand fields never matter. -/
def Obligations.ExactlyTheLegalInstValuesDecode : Prop :=
  legalInst.length = 28 ∧ legalInst.Nodup ∧
  ∀ cmd : Cmd, (∃ i, decode cmd = .ok i) ↔ instField cmd ∈ legalInst

/-- R47: a command is the named one exactly when `(inst AND mask) = match` and, for RDKEY, `sel ≤ 4`. -/
def Obligations.TheOpcodeMapNamesTheCommand : Prop :=
  ∀ row ∈ [(Opcode.modinv, 0xFFFF#16, 0x0001#16), (.enc, 0xFEFF#16, 0x0002#16), (.dec, 0xFEFF#16, 0x0003#16),
      (.setkey, 0xFFFF#16, 0x0004#16), (.decc, 0xFFFF#16, 0x0005#16), (.decv, 0x0FFF#16, 0x0006#16),
      (.rdkey, 0xF1FF#16, 0x0007#16)],
    ∀ cmd : Cmd, (∃ i, decode cmd = .ok i ∧ i.opcode = row.1) ↔
      (instField cmd &&& row.2.1 = row.2.2 ∧ (row.1 = .rdkey → selField (instField cmd) ≤ 4#3))

/-- R43 to R47, R53: decoding the encoded form of any well-formed command gives the command back. -/
def Obligations.DecodeOfEncodeIsTheCommand : Prop :=
  ∀ i : Instr, i.wf = true → decode (encode i) = .ok i

/-- R45, R47: whatever decodes is well-formed, and encoding it again gives the same instruction word. -/
def Obligations.EncodeOfDecodeKeepsTheInstWord : Prop :=
  ∀ (cmd : Cmd) (i : Instr), decode cmd = .ok i → i.wf = true ∧ instField (encode i) = instField cmd

/-- R48, R75: the three fields of the 39-bit response, and the code of each status. -/
def Obligations.TheResponseBundleHoldsItsFields : Prop :=
  ∀ r : Response,
    (respBits r).extractLsb' 0 32 = r.res ∧ (respBits r).extractLsb' 32 3 = r.cnt ∧
    ((respBits r).extractLsb' 35 4).toNat =
      match r.status with
      | .ok => 0
      | .err .notInvertible => 1
      | .err .invalidAlphabetSize => 2
      | .err .noKey => 3
      | .err .badModulus => 4
      | .err .illegalCommand => 5

/-- R53: the fields each assembler line stands for. R53 with R8 admits only integers that fit a word; that the lines
are abstract and other integers are taken modulo 2^32 is the model's choice (DESIGN CHOICE, log entry 10). -/
def Obligations.AssemblerLinesStandForTheirFields : Prop :=
  ∀ (a b n i : Int) (c c0 c1 c2 c3 : Byte) (lm : BitVec 4),
    (assemble (.modinv a n)).map encode = [bundle 0x0001#16 (BitVec.ofInt 32 a) 0#32 (BitVec.ofInt 32 n)] ∧
    (assemble (.enc .latin26 c)).map encode = [bundle 0x0002#16 (c.setWidth 32) 0#32 0#32] ∧
    (assemble (.enc .latin27 c)).map encode = [bundle 0x0102#16 (c.setWidth 32) 0#32 0#32] ∧
    (assemble (.dec .latin26 i)).map encode = [bundle 0x0003#16 (BitVec.ofInt 32 i) 0#32 0#32] ∧
    (assemble (.dec .latin27 i)).map encode = [bundle 0x0103#16 (BitVec.ofInt 32 i) 0#32 0#32] ∧
    (assemble (.setkey a b n)).map encode =
      [bundle 0x0004#16 (BitVec.ofInt 32 a) (BitVec.ofInt 32 b) (BitVec.ofInt 32 n)] ∧
    (assemble (.decc c)).map encode = [bundle 0x0005#16 (c.setWidth 32) 0#32 0#32] ∧
    (assemble (.decv lm c0 c1 c2 c3)).map encode =
      [bundle (BitVec.ofNat 16 (0x0006 + 0x1000 * lm.toNat)) (c3 ++ c2 ++ c1 ++ c0) 0#32 0#32] ∧
    (assemble (.rdkey .status)).map encode = [bundle 0x0007#16 0#32 0#32 0#32] ∧
    (assemble (.rdkey .a)).map encode = [bundle 0x0207#16 0#32 0#32 0#32] ∧
    (assemble (.rdkey .b)).map encode = [bundle 0x0407#16 0#32 0#32 0#32] ∧
    (assemble (.rdkey .n)).map encode = [bundle 0x0607#16 0#32 0#32 0#32] ∧
    (assemble (.rdkey .ainv)).map encode = [bundle 0x0807#16 0#32 0#32 0#32]

/-! ### The modular inverse unit -/

/-- R55: the reference algorithm of R56 meets the contract of `modinv` for all integers a and n. -/
def Obligations.TheEuclideanAlgorithmMeetsTheContract : Prop :=
  ∀ a n : Int,
    (n ≤ 1 → modinv a n = .error .badModulus) ∧
    (2 ≤ n → Int.gcd a n ≠ 1 → modinv a n = .error .notInvertible) ∧
    (2 ≤ n → Int.gcd a n = 1 →
      ∃ x, modinv a n = .ok x ∧ 0 ≤ x ∧ x < n ∧ emod (a * x) n = 1 ∧
        ∀ y, 0 ≤ y → y < n → emod (a * y) n = 1 → y = x)

/-- R57 (f) to (i), which the spec marks as derived from R9, R55, R56: only emod(a, n) matters; x is never 0; the
inverses of 1 and −1; inverting twice. -/
def Obligations.ModinvFactsHold : Prop :=
  (∀ a n k : Int, modinv (a + k * n) n = modinv a n) ∧
  (∀ a n x : Int, modinv a n = .ok x → x ≠ 0) ∧
  (∀ n : Int, 2 ≤ n → modinv 1 n = .ok 1 ∧ modinv (-1) n = .ok (n - 1) ∧ modinv (n - 1) n = .ok (n - 1)) ∧
  (∀ a n x : Int, modinv a n = .ok x → modinv x n = .ok (emod a n))

/-- R57 (b) and R94, which the spec marks as derived from R56: the loop ends by itself: any bound of at
least n rounds gives the same result as n, and for the two alphabet sizes 5 rounds are enough. -/
def Obligations.TheEuclideanLoopEndsByItself : Prop :=
  (∀ (a n : Int) (fuel : Nat), 2 ≤ n → n.toNat ≤ fuel →
    eeaLoop fuel n (emod a n) 0 1 = eeaLoop n.toNat n (emod a n) 0 1) ∧
  (∀ a n : Int, n = 26 ∨ n = 27 → eeaLoop 5 n (emod a n) 0 1 = eeaLoop n.toNat n (emod a n) 0 1)

/-- R58: MODINV completes with the unique inverse, for every modulus of at least 2 that has one, and changes nothing.
-/
def Obligations.ModinvAnswersTheInverse : Prop :=
  ∀ (a n : Word) (x : Int) (s : State),
    2 ≤ n.toInt → 0 ≤ x → x < n.toInt → emod (a.toInt * x) n.toInt = 1 →
      exec (.modinv a n) s = .next (s.withPhase (.responding ⟨.ok, 1#3, BitVec.ofInt 32 x⟩))

/-! ### The alphabet codec unit -/

/-- R60, R63, 95_test_vectors.md section 2.2: ENC completes for every code, with the index of a letter or absent. -/
def Obligations.EncAnswersTheIndexOrAbsent : Prop :=
  ∀ (c : Byte) (s : State),
    (exec (.enc .latin26 c) s = .next (s.withPhase (.responding
      (if 0x41 ≤ c.toNat ∧ c.toNat ≤ 0x5A then ⟨.ok, 1#3, BitVec.ofNat 32 (c.toNat - 0x41)⟩
       else if 0x61 ≤ c.toNat ∧ c.toNat ≤ 0x7A then ⟨.ok, 1#3, BitVec.ofNat 32 (c.toNat - 0x61)⟩
       else ⟨.ok, 0#3, 0#32⟩)))) ∧
    (exec (.enc .latin27 c) s = .next (s.withPhase (.responding
      (if 0x41 ≤ c.toNat ∧ c.toNat ≤ 0x4E then ⟨.ok, 1#3, BitVec.ofNat 32 (c.toNat - 0x41)⟩
       else if 0x4F ≤ c.toNat ∧ c.toNat ≤ 0x5A then ⟨.ok, 1#3, BitVec.ofNat 32 (c.toNat - 0x40)⟩
       else if 0x61 ≤ c.toNat ∧ c.toNat ≤ 0x6E then ⟨.ok, 1#3, BitVec.ofNat 32 (c.toNat - 0x61)⟩
       else if 0x6F ≤ c.toNat ∧ c.toNat ≤ 0x7A then ⟨.ok, 1#3, BitVec.ofNat 32 (c.toNat - 0x60)⟩
       else if c = 0xD1#8 ∨ c = 0xF1#8 then ⟨.ok, 1#3, 14#32⟩
       else ⟨.ok, 0#3, 0#32⟩))))

/-- R31, R32, R64: DEC completes for every index, with the letter at the index reduced modulo the table's size. -/
def Obligations.DecAnswersTheLetterModuloTheSize : Prop :=
  ∀ (x : Word) (j : Nat) (q : Int) (s : State),
    (j < 26 → x.toInt = j + q * 26 →
      exec (.dec .latin26 x) s = .next (s.withPhase (.responding ⟨.ok, 1#3, BitVec.ofNat 32 (0x41 + j)⟩))) ∧
    (j < 27 → x.toInt = j + q * 27 →
      exec (.dec .latin27 x) s = .next (s.withPhase (.responding ⟨.ok, 1#3,
        if j ≤ 13 then BitVec.ofNat 32 (0x41 + j) else if j = 14 then 0xD1#32 else BitVec.ofNat 32 (0x40 + j)⟩)))

/-- R62 (a) to (f): the codec laws, which the spec marks as derived from R59, R60, R61, R31, R32. -/
def Obligations.TheCodecLawsHold : Prop :=
  (∀ v c i, enc v c = some i → i < alphabetSize v ∧ dec v i = up c) ∧
  (∀ v (i : Nat), i < alphabetSize v → enc v (dec v i) = some i) ∧
  (∀ v (i q : Int), dec v (i + q * alphabetSize v) = dec v i) ∧
  (∀ v c, enc v c = enc v (up c)) ∧
  (∀ v c x (s t : State), answerOf (.enc v c) s = answerOf (.enc v c) t ∧
    answerOf (.dec v x) s = answerOf (.dec v x) t ∧
    (∀ u, exec (.enc v c) s = .next u → u.key = s.key) ∧ (∀ u, exec (.dec v x) s = .next u → u.key = s.key)) ∧
  (∀ c i, enc .latin26 c = some i → enc .latin27 c = some (if i ≤ 13 then i else i + 1))

/-! ### The affine decode unit -/

/-- R65, R66: a SETKEY with n = 26 or 27 and a coprime to n completes: the whole slot is written, `KV` becomes 1, and
a_inv is the answer. -/
def Obligations.SetkeyInstallsTheKey : Prop :=
  ∀ (a b n : Word) (v : Variant) (x : Int) (s : State),
    n.toInt = alphabetSize v → 0 ≤ x → x < n.toInt → emod (a.toInt * x) n.toInt = 1 →
      exec (.setkey a b n) s =
        .next ((s.withKey (some { a := a, b := b, n := v, ainv := BitVec.ofInt 5 x })).withPhase
          (.responding ⟨.ok, 1#3, BitVec.ofInt 32 x⟩))

/-- R18, R28: after SETKEY `KV` is 1 exactly when it responded OK; no other command changes `KV`; `rst` clears it. -/
def Obligations.TheValidFlagFollowsSetkeyAndReset : Prop :=
  (∀ (a b n : Word) (s t : State) (r : Response), exec (.setkey a b n) s = .next t → respOut t = some r →
    (kv t = true ↔ r.status = .ok)) ∧
  (∀ (i : Instr) (s t : State), isSetkey i = false → exec i s = .next t → kv t = kv s) ∧
  (∀ s t : State, s.edge.rst = true → step s = .next t → kv t = false)

/-- R19 to R22, R74: after a successful SETKEY the key registers read back its operands, as supplied and unreduced,
and the cached inverse. -/
def Obligations.KeyRegistersReadBackWhatSetkeyStored : Prop :=
  ∀ (a b n : Word) (s t : State) (r : Response),
    exec (.setkey a b n) s = .next t → respOut t = some r → r.status = .ok →
      exec (.rdkey 0#3) t = .next (t.withPhase (.responding ⟨.ok, 1#3, 1#32⟩)) ∧
      exec (.rdkey 1#3) t = .next (t.withPhase (.responding ⟨.ok, 1#3, a⟩)) ∧
      exec (.rdkey 2#3) t = .next (t.withPhase (.responding ⟨.ok, 1#3, b⟩)) ∧
      exec (.rdkey 3#3) t = .next (t.withPhase (.responding ⟨.ok, 1#3, n⟩)) ∧
      exec (.rdkey 4#3) t = .next (t.withPhase (.responding ⟨.ok, 1#3, r.res⟩)) ∧
      emod (a.toInt * r.res.toInt) n.toInt = 1

/-- R67, R68: with a key, DECC completes: a letter of index ci gives the letter of index
emod(a_inv · (ci + n − b), n), anything else is absent with status OK; the key is unchanged. -/
def Obligations.DeccDecodesByTheFormula : Prop :=
  ∀ (c : Byte) (k : Key) (s : State), s.key = some k →
    (∀ ci m : Nat, enc k.n c = some ci → m < alphabetSize k.n →
      emod ((k.ainv.toNat : Int) * (ci + alphabetSize k.n - k.b.toInt)) (alphabetSize k.n) = m →
        exec (.decc c) s =
          .next (s.withPhase (.responding ⟨.ok, 1#3, ((table k.n).getD m 0#8).setWidth 32⟩))) ∧
    (enc k.n c = none → exec (.decc c) s = .next (s.withPhase (.responding ⟨.ok, 0#3, 0#32⟩)))

/-- R69 (b), which the spec marks as derived from R67: under a valid key, DECC of the affine encryption of the letter
of index m gives that letter. -/
def Obligations.DeccInvertsTheAffineCipher : Prop :=
  ∀ (c : Byte) (k : Key) (m : Nat) (s : State),
    s.key = some k → KeyValid k → m < alphabetSize k.n → enc k.n c = some (encryptIndex k m) →
      exec (.decc c) s =
        .next (s.withPhase (.responding ⟨.ok, 1#3, ((table k.n).getD m 0#8).setWidth 32⟩))

/-- R69 (a), which the spec marks as derived from R67: the §4.3 form, the glossary form and the form with b reduced
first give the same index. -/
def Obligations.TheThreeDecodeFormsAgree : Prop :=
  ∀ (k : AffineKey) (ci : Nat),
    decodeIndex k ci = emod (k.aInv * (ci - k.b)) (alphabetSize k.n) ∧
    decodeIndex k ci =
      emod (k.aInv * (ci + alphabetSize k.n - emod k.b (alphabetSize k.n))) (alphabetSize k.n)

/-- R69 (c), which the spec marks as derived from R67: for a valid key the decode map is a bijection of 0 .. n − 1. -/
def Obligations.DecodingIsABijectionOfTheAlphabet : Prop :=
  ∀ k : Key, KeyValid k →
    (∀ ci : Nat, ci < alphabetSize k.n →
      0 ≤ decodeIndex (loadKey k) ci ∧ decodeIndex (loadKey k) ci < alphabetSize k.n) ∧
    (∀ ci cj : Nat, ci < alphabetSize k.n → cj < alphabetSize k.n →
      decodeIndex (loadKey k) ci = decodeIndex (loadKey k) cj → ci = cj) ∧
    (∀ m : Nat, m < alphabetSize k.n → ∃ ci : Nat, ci < alphabetSize k.n ∧ decodeIndex (loadKey k) ci = m)

/-- R69 (d) to (f), which the spec marks as derived from R67: the key (1, 0, n) upper-cases the letters; case does not
matter; a character is absent exactly when it is no letter of the active alphabet. -/
def Obligations.DecodingKeepsTheLettersOfTheAlphabet : Prop :=
  (∀ v c i, enc v c = some i → decodeChar { a := 1, b := 0, n := v, aInv := 1 } c = some (up c)) ∧
  (∀ (c : Byte) (s : State), exec (.decc c) s = exec (.decc (up c)) s) ∧
  (∀ (k : AffineKey) (c : Byte), decodeChar k c = none ↔ enc k.n c = none)

/-! ### The stream filter-map unit -/

/-- R71: with a key, DECV completes: the decoded letters of the selected lanes, in order, packed toward lane 0, the
bytes above them 0, `cnt` their number; the key is unchanged. -/
def Obligations.DecvPacksTheDecodedLanes : Prop :=
  ∀ (lm : BitVec 4) (c0 c1 c2 c3 : Byte) (k : Key) (out : List Byte) (s : State),
    s.key = some k → out = decodeText (loadKey k) (selectLanes lm c0 c1 c2 c3) →
      ∃ r, exec (.decv lm c0 c1 c2 c3) s = .next (s.withPhase (.responding r)) ∧
        r.status = .ok ∧ r.cnt.toNat = out.length ∧ outputOf r = out ∧
        (∀ j b, out[j]? = some b → r.res.extractLsb' (8 * j) 8 = b) ∧
        (∀ j, out.length ≤ j → r.res.extractLsb' (8 * j) 8 = 0#8)

/-- R46, R71, R73 (b): a lane that the mask does not select has no effect; the selected lanes are taken in order. -/
def Obligations.UnselectedLanesHaveNoEffect : Prop :=
  ∀ (lm : BitVec 4) (c0 c1 c2 c3 d0 d1 d2 d3 : Byte) (s : State),
    (lm.getLsbD 0 = true → c0 = d0) → (lm.getLsbD 1 = true → c1 = d1) →
    (lm.getLsbD 2 = true → c2 = d2) → (lm.getLsbD 3 = true → c3 = d3) →
      exec (.decv lm c0 c1 c2 c3) s = exec (.decv lm d0 d1 d2 d3) s

/-- R73 (a), (c), (d), which the spec marks as derived from R70: the output is as long as the text has letters; texts
may be cut anywhere; every output character is an entry of the active table. -/
def Obligations.DecodedTextFactsHold : Prop :=
  (∀ (k : AffineKey) (text : List Byte),
    (decodeText k text).length = text.countP fun c => (enc k.n c).isSome) ∧
  (∀ (k : AffineKey) (p q : List Byte), decodeText k (p ++ q) = decodeText k p ++ decodeText k q) ∧
  (∀ (k : AffineKey) (text : List Byte), ∀ m ∈ decodeText k text, m ∈ table k.n)

/-- R73 (f), which the spec marks as derived from R70: decoding the affine encryption of a plaintext gives the
upper-cased plaintext without its non-letters. -/
def Obligations.DecodingAnEncryptedTextGivesThePlaintext : Prop :=
  ∀ (k : Key) (plain : List Byte), KeyValid k →
    decodeText (loadKey k) (plain.map (encryptChar k)) =
      (plain.filter fun c => (enc k.n c).isSome).map up

/-- R72 (that the grouping does not matter the spec marks as derived from R71): whatever mix of DECC and DECV commands
presents a text once and in order, the host's output is `decode_text` of it, and the key is as it was. -/
def Obligations.AnyGroupingDecodesTheWholeText : Prop :=
  ∀ (cmds : List Instr) (k : Key) (s : State),
    s.key = some k → (∀ i ∈ cmds, isDecode i = true) →
      ∃ t, session cmds s = some (t, decodeText (loadKey k) (cmds.flatMap presented)) ∧ t.key = some k

/-- R54: DECS expands to ceil(L / 4) DECV commands that present the text once and in order, each with full lanes but
the last. -/
def Obligations.DecsPresentsTheTextInOrder : Prop :=
  ∀ text : List Byte,
    (expandDecs text).flatMap presented = text ∧
    (expandDecs text).length = (text.length + 3) / 4 ∧
    ∀ j i, (expandDecs text)[j]? = some i →
      ∃ lm, i = .decv lm (text.getD (4 * j) 0#8) (text.getD (4 * j + 1) 0#8) (text.getD (4 * j + 2) 0#8)
          (text.getD (4 * j + 3) 0#8) ∧
        lm.toNat = 2 ^ min 4 (text.length - 4 * j) - 1

/-! ### The state read -/

/-- R29, R74: RDKEY STATUS always completes with `KV`; with a key the other four registers complete with their words,
N as the integer 26 or 27; without one they raise NoKey; a number above 4 raises IllegalCommand first. -/
def Obligations.RdkeyReadsTheKeyRegisters : Prop :=
  ∀ s : State,
    (s.key = none → exec (.rdkey 0#3) s = .next (s.withPhase (.responding ⟨.ok, 1#3, 0#32⟩))) ∧
    (∀ k, s.key = some k →
      exec (.rdkey 0#3) s = .next (s.withPhase (.responding ⟨.ok, 1#3, 1#32⟩)) ∧
      exec (.rdkey 1#3) s = .next (s.withPhase (.responding ⟨.ok, 1#3, k.a⟩)) ∧
      exec (.rdkey 2#3) s = .next (s.withPhase (.responding ⟨.ok, 1#3, k.b⟩)) ∧
      exec (.rdkey 3#3) s = .next (s.withPhase (.responding ⟨.ok, 1#3,
        match k.n with
        | .latin26 => 26#32
        | .latin27 => 27#32⟩)) ∧
      exec (.rdkey 4#3) s = .next (s.withPhase (.responding ⟨.ok, 1#3, BitVec.ofNat 32 k.ainv.toNat⟩))) ∧
    (s.key = none → ∀ sel : BitVec 3, 1#3 ≤ sel → sel ≤ 4#3 →
      exec (.rdkey sel) s = .next (s.withPhase (.responding ⟨.err .noKey, 0#3, 0#32⟩))) ∧
    (∀ sel : BitVec 3, 4#3 < sel →
      exec (.rdkey sel) s = .next (s.withPhase (.responding ⟨.err .illegalCommand, 0#3, 0#32⟩)))

/-! ### Errors -/

/-- R76: NotInvertible is raised by MODINV when n ≥ 2 and gcd(a, n) ≠ 1, with no state effect, and by SETKEY when n is
26 or 27 and gcd(a, n) ≠ 1, clearing `KV`; by nothing else; its code is 1. -/
def Obligations.NotInvertibleIsRaisedForCommonFactors : Prop :=
  errCode .notInvertible = 1#4 ∧
  (∀ (a n : Word) (s : State), 2 ≤ n.toInt → Int.gcd a.toInt n.toInt ≠ 1 →
    exec (.modinv a n) s = .next (s.withPhase (.responding ⟨.err .notInvertible, 0#3, 0#32⟩))) ∧
  (∀ (a b n : Word) (s : State), n.toInt = 26 ∨ n.toInt = 27 → Int.gcd a.toInt n.toInt ≠ 1 →
    exec (.setkey a b n) s =
      .next ((s.withKey none).withPhase (.responding ⟨.err .notInvertible, 0#3, 0#32⟩))) ∧
  (∀ (i : Instr) (s : State), Raises .notInvertible i s →
    (∃ a n, i = .modinv a n ∧ 2 ≤ n.toInt ∧ Int.gcd a.toInt n.toInt ≠ 1) ∨
    (∃ a b n, i = .setkey a b n ∧ (n.toInt = 26 ∨ n.toInt = 27) ∧ Int.gcd a.toInt n.toInt ≠ 1))

/-- R77: InvalidAlphabetSize is raised by SETKEY when n is neither 26 nor 27, before the inverse is attempted (so
whatever a is), clearing `KV`; by nothing else; its code is 2. -/
def Obligations.InvalidAlphabetSizeIsRaisedBySetkey : Prop :=
  errCode .invalidAlphabetSize = 2#4 ∧
  (∀ (a b n : Word) (s : State), n.toInt ≠ 26 → n.toInt ≠ 27 →
    exec (.setkey a b n) s =
      .next ((s.withKey none).withPhase (.responding ⟨.err .invalidAlphabetSize, 0#3, 0#32⟩))) ∧
  (∀ (i : Instr) (s : State), Raises .invalidAlphabetSize i s →
    ∃ a b n, i = .setkey a b n ∧ n.toInt ≠ 26 ∧ n.toInt ≠ 27)

/-- R78: NoKey is raised by DECC and DECV, whatever their operands, and by RDKEY with `sel` in 1 .. 4, when `KV` = 0,
with no state effect; by nothing else; its code is 3. -/
def Obligations.NoKeyIsRaisedWithoutAKey : Prop :=
  errCode .noKey = 3#4 ∧
  (∀ (i : Instr) (s : State), s.key = none →
    (isDecode i = true ∨ ∃ sel : BitVec 3, i = .rdkey sel ∧ 1#3 ≤ sel ∧ sel ≤ 4#3) →
      exec i s = .next (s.withPhase (.responding ⟨.err .noKey, 0#3, 0#32⟩))) ∧
  (∀ (i : Instr) (s : State), Raises .noKey i s →
    s.key = none ∧ (isDecode i = true ∨ ∃ sel : BitVec 3, i = .rdkey sel ∧ 1#3 ≤ sel ∧ sel ≤ 4#3))

/-- R79: BadModulus is raised by MODINV when n ≤ 1, with no state effect; by nothing else; its code is 4. -/
def Obligations.BadModulusIsRaisedByModinv : Prop :=
  errCode .badModulus = 4#4 ∧
  (∀ (a n : Word) (s : State), n.toInt ≤ 1 →
    exec (.modinv a n) s = .next (s.withPhase (.responding ⟨.err .badModulus, 0#3, 0#32⟩))) ∧
  (∀ (i : Instr) (s : State), Raises .badModulus i s → ∃ a n, i = .modinv a n ∧ n.toInt ≤ 1)

/-- R75, R82: a command that answers an error has `cnt` = 0 and `res` = 0 and writes no state, but a failed SETKEY
clears the slot. -/
def Obligations.ErrorsWriteNothingButAFailedSetkey : Prop :=
  ∀ (i : Instr) (s t : State) (r : Response) (e : Err),
    exec i s = .next t → respOut t = some r → r.status = .err e →
      r.cnt = 0#3 ∧ r.res = 0#32 ∧ t.edges = s.edges ∧ t.delivered = s.delivered ∧
      t.key = if isSetkey i then none else s.key

/-! ### Frames and purity -/

/-- R24, R48: every command leaves exactly one response on the port and changes neither the inputs nor what has been
delivered; only SETKEY changes the key slot. -/
def Obligations.CommandsChangeOnlyTheResponseAndSetkeyTheSlot : Prop :=
  ∀ (i : Instr) (s t : State), exec i s = .next t →
    (∃ r, t.phase = .responding r) ∧ t.edges = s.edges ∧ t.delivered = s.delivered ∧
    (isSetkey i = false → t.key = s.key)

/-- R48: how many items an OK response has, command by command; an error has none. -/
def Obligations.ItemCountsFollowTheCommand : Prop :=
  ∀ (i : Instr) (s : State) (r : Response), answerOf i s = some r →
    (r.status ≠ .ok → r.cnt = 0#3 ∧ r.res = 0#32) ∧
    (r.status = .ok →
      match i with
      | .modinv _ _ => r.cnt = 1#3
      | .enc v c => r.cnt = if (enc v c).isSome then 1#3 else 0#3
      | .dec _ _ => r.cnt = 1#3
      | .setkey _ _ _ => r.cnt = 1#3
      | .decc c => ∃ k, s.key = some k ∧ r.cnt = if (enc k.n c).isSome then 1#3 else 0#3
      | .decv lm c0 c1 c2 c3 => ∃ k, s.key = some k ∧
          r.cnt.toNat = (selectLanes lm c0 c1 c2 c3).countP fun c => (enc k.n c).isSome
      | .rdkey _ => r.cnt = 1#3)

/-- R24, R37, R58, R63, R64, R66: the answer and the new key slot depend on the command and the key slot alone, and
for MODINV, ENC, DEC and SETKEY the answer depends on the command alone. -/
def Obligations.AnswersDependOnTheKeySlotAlone : Prop :=
  ∀ (i : Instr) (s t : State),
    (s.key = t.key → answerOf i s = answerOf i t ∧
      ∀ u w, exec i s = .next u → exec i t = .next w → u.key = w.key) ∧
    ((isDecode i = false ∧ ∀ sel, i ≠ .rdkey sel) → answerOf i s = answerOf i t)

/-- R24, R89: the key slot changes at a step only if `rst` is sampled high or a SETKEY completes. -/
def Obligations.OnlySetkeyAndResetChangeTheSlot : Prop :=
  ∀ s t : State, step s = .next t → t.key ≠ s.key →
    s.edge.rst = true ∨
    ∃ cmd a b n, s.phase = .executing cmd ∧ s.edge.stall = false ∧ decode cmd = .ok (.setkey a b n)

/-! ### Invariants -/

/-- R23 (its preservation the spec marks as derived from R24, R66), R48: every step keeps the key invariant and the
form of every response. -/
def Obligations.EveryStepKeepsTheStateValid : Prop :=
  ∀ s t : State, StateValid s → step s = .next t → StateValid t

/-- R30, R23: the state after reset has no key, waits for a command (whatever `rst` is then: log
entry 11), and meets the invariant. -/
def Obligations.TheResetStateIsValid : Prop :=
  State.reset.key = none ∧ kv State.reset = false ∧ cmdReady State.reset = true ∧ StateValid State.reset

/-! ### Reset and handshake -/

/-- R89: `rst` sampled high: `KV` ← 0; a command in progress is abandoned and produces no response; no command is
accepted and no response is sent; the block is ready afterwards. That a response already waiting is dropped is deduced
(DEDUCED, log entry 4). -/
def Obligations.ResetClearsTheKeyAndAbandonsTheCommand : Prop :=
  ∀ s : State, s.edge.rst = true →
    step s = .next { key := none, phase := .idle, edges := s.edges.tail, delivered := s.delivered }

/-- R89: a command, SETKEY included, that is abandoned by a reset while it is in progress leaves no key, no response
and a block that is ready. -/
def Obligations.AnAbandonedCommandHasNoEffect : Prop :=
  ∀ (s : State) (first rstEdge : Edge) (stalls rest : List Edge),
    s.phase = .idle → s.edges = first :: (stalls ++ rstEdge :: rest) →
    first.rst = false → first.cmdValid = true → (∀ e ∈ stalls, e.rst = false ∧ e.stall = true) →
    rstEdge.rst = true →
      Host.Core.run core (stalls.length + 2) s =
        .next { key := none, phase := .idle, edges := rest, delivered := s.delivered }

/-- R91 (a) to (d), and R89 for the edges with `rst` high: a command comes to be in progress only by acceptance at an
edge at which the block is ready, and is sampled there; a response comes to wait only by the completion of the command
in progress, as that command's response; it is delivered when it waits and the host takes it, then and only then, and
after the earlier ones; until then it holds steady, unless a reset comes. That a response already waiting is dropped
at an edge with `rst` high (the last clause) is deduced from R89, not stated there (DEDUCED, log entry 4). That
`cmd_ready` and `resp_valid` do not look at `rst` is the model's choice (log entry 11). -/
def Obligations.TheHandshakeKeepsItsGuarantees : Prop :=
  ∀ s t : State, step s = .next t →
    (∀ cmd, t.phase = .executing cmd →
      (s.phase = .executing cmd ∧ s.edge.stall = true) ∨
      (cmdReady s = true ∧ s.edge.rst = false ∧ s.edge.cmdValid = true ∧ s.edge.cmd = cmd)) ∧
    (t.delivered = s.delivered ∨
      ∃ r, respOut s = some r ∧ s.edge.rst = false ∧ s.edge.respReady = true ∧
        t.delivered = s.delivered ++ [r] ∧ cmdReady t = true) ∧
    (∀ r, respOut s = some r → s.edge.rst = false → s.edge.respReady = false →
      respOut t = some r ∧ cmdReady t = false) ∧
    (∀ r, respOut s = some r → s.edge.rst = false → s.edge.respReady = true →
      t.delivered = s.delivered ++ [r] ∧ cmdReady t = true) ∧
    (∀ r, respOut t = some r → s.edge.rst = false ∧
      ((respOut s = some r ∧ s.edge.respReady = false) ∨
        ∃ cmd, s.phase = .executing cmd ∧ s.edge.stall = false ∧ executeCommand cmd s.tick = .next t))

/-- R91 (b), R93: without a reset, an accepted command is answered exactly once, after however many edges its latency
and the host's delay take, with the effect and the response of the whole command. -/
def Obligations.EveryAcceptedCommandIsAnsweredOnce : Prop :=
  ∀ (s : State) (first done last : Edge) (stalls waits rest : List Edge),
    s.phase = .idle → s.edges = first :: (stalls ++ done :: (waits ++ last :: rest)) →
    first.rst = false → first.cmdValid = true →
    (∀ e ∈ stalls, e.rst = false ∧ e.stall = true) → done.rst = false → done.stall = false →
    (∀ e ∈ waits, e.rst = false ∧ e.respReady = false) → last.rst = false → last.respReady = true →
      ∃ k r, executeCommand first.cmd s = .next ((s.withKey k).withPhase (.responding r)) ∧
        Host.Core.run core (stalls.length + waits.length + 3) s =
          .next { key := k, phase := .idle, edges := rest, delivered := s.delivered ++ [r] }

/-- R86, R91: nothing happens in the block but the execution of a command or a reset: at an edge without `rst` an idle
block to which no command is presented, a busy one whose command does not complete and one whose response is not taken
only let the edge pass; an idle block to which a command is presented only accepts it. -/
def Obligations.NothingHappensButACommandOrAReset : Prop :=
  ∀ s : State, s.edge.rst = false →
    (s.phase = .idle → s.edge.cmdValid = false → step s = .next s.tick) ∧
    (s.phase = .idle → s.edge.cmdValid = true → step s = .next (s.tick.withPhase (.executing s.edge.cmd))) ∧
    (∀ cmd, s.phase = .executing cmd → s.edge.stall = true → step s = .next s.tick) ∧
    (∀ r, s.phase = .responding r → s.edge.respReady = false → step s = .next s.tick)
end

