-- ==== Sys2Proof/Laws/Decode.lean ====
section
/-! SUPPORT. The fields of a concatenation are what was put into it. -/

namespace Sys2Proof

/-- A slice that starts above the low part of a concatenation is a slice of the high part. -/
theorem slice_append_high {a b : Nat} (x : BitVec a) (y : BitVec b) (k n : Nat) :
    (x ++ y).extractLsb' (b + k) n = x.extractLsb' k n := by
  apply BitVec.eq_of_getLsbD_eq
  intro i hi
  have h1 : ¬ b + k + i < b := by omega
  have h2 : b + k + i - b = k + i := by omega
  simp only [BitVec.getLsbD_extractLsb', BitVec.getLsbD_append, h1, h2, if_false]

/-- A slice that lies in the low part of a concatenation is a slice of the low part. -/
theorem slice_append_low {a b : Nat} (x : BitVec a) (y : BitVec b) (k n : Nat) (h : k + n ≤ b) :
    (x ++ y).extractLsb' k n = y.extractLsb' k n := by
  apply BitVec.eq_of_getLsbD_eq
  intro i hi
  have h1 : k + i < b := by omega
  simp only [BitVec.getLsbD_extractLsb', BitVec.getLsbD_append, h1, if_true]

/-- The slice of all of a vector is the vector. -/
theorem slice_all {a : Nat} (x : BitVec a) : x.extractLsb' 0 a = x := by
  apply BitVec.eq_of_getLsbD_eq
  intro i hi
  simp [hi]

/-- A vector is its upper part followed by its lower part. -/
theorem split_at {a b : Nat} (x : BitVec (a + b)) : x = x.extractLsb' b a ++ x.extractLsb' 0 b := by
  apply BitVec.eq_of_getLsbD_eq
  intro i hi
  simp only [BitVec.getLsbD_append, BitVec.getLsbD_extractLsb', Nat.zero_add]
  split
  · simp [*]
  · rw [show b + (i - b) = i by omega]
    simp [show i - b < a by omega]

/-- A slice of an upper part is a slice of the whole. -/
theorem slice_slice {w : Nat} (x : BitVec w) (k n j m : Nat) (h : j + m ≤ n) :
    (x.extractLsb' k n).extractLsb' j m = x.extractLsb' (k + j) m := by
  apply BitVec.eq_of_getLsbD_eq
  intro i hi
  simp only [BitVec.getLsbD_extractLsb', hi, show j + i < n by omega, Nat.add_assoc, decide_true,
    Bool.true_and]

/-- R44: the instruction word is its four fields, `lm`, `sel`, `s`, `opc` from the most significant end. -/
theorem inst_fields (inst : InstWord) :
    inst = lmField inst ++ selField inst ++ inst.extractLsb' 8 1 ++ opcField inst := by
  have h1 : inst = inst.extractLsb' 8 8 ++ inst.extractLsb' 0 8 := split_at (a := 8) (b := 8) inst
  have h2 : inst.extractLsb' 8 8 = inst.extractLsb' 9 7 ++ inst.extractLsb' 8 1 :=
    (split_at (a := 7) (b := 1) (inst.extractLsb' 8 8)).trans
      (by rw [slice_slice _ _ _ _ _ (by omega), slice_slice _ _ _ _ _ (by omega)])
  have h3 : inst.extractLsb' 9 7 = inst.extractLsb' 12 4 ++ inst.extractLsb' 9 3 :=
    (split_at (a := 4) (b := 3) (inst.extractLsb' 9 7)).trans
      (by rw [slice_slice _ _ _ _ _ (by omega), slice_slice _ _ _ _ _ (by omega)])
  rw [h3] at h2
  rw [h2] at h1
  exact h1

section
variable (inst : InstWord) (opa opb opn : Word)

@[simp] theorem instField_bundle : instField (bundle inst opa opb opn) = inst :=
  (slice_append_low (opn ++ opb ++ opa) inst 0 16 (by omega)).trans (slice_all inst)

@[simp] theorem opaField_bundle : opaField (bundle inst opa opb opn) = opa :=
  (slice_append_high (opn ++ opb ++ opa) inst 0 32).trans
    ((slice_append_low (opn ++ opb) opa 0 32 (by omega)).trans (slice_all opa))

@[simp] theorem opbField_bundle : opbField (bundle inst opa opb opn) = opb :=
  (slice_append_high (opn ++ opb ++ opa) inst 32 32).trans
    ((slice_append_high (opn ++ opb) opa 0 32).trans
      ((slice_append_low opn opb 0 32 (by omega)).trans (slice_all opb)))

@[simp] theorem opnField_bundle : opnField (bundle inst opa opb opn) = opn :=
  (slice_append_high (opn ++ opb ++ opa) inst 64 32).trans
    ((slice_append_high (opn ++ opb) opa 32 32).trans
      ((slice_append_high opn opb 0 32).trans (slice_all opn)))

end

/-- The lanes of four characters joined with lane 0 least significant (R35). -/
theorem lane_join (c0 c1 c2 c3 : Byte) :
    lane (c3 ++ c2 ++ c1 ++ c0) 0 = c0 ∧ lane (c3 ++ c2 ++ c1 ++ c0) 1 = c1 ∧
    lane (c3 ++ c2 ++ c1 ++ c0) 2 = c2 ∧ lane (c3 ++ c2 ++ c1 ++ c0) 3 = c3 :=
  ⟨(slice_append_low (c3 ++ c2 ++ c1) c0 0 8 (by omega)).trans (slice_all c0),
   (slice_append_high (c3 ++ c2 ++ c1) c0 0 8).trans
     ((slice_append_low (c3 ++ c2) c1 0 8 (by omega)).trans (slice_all c1)),
   (slice_append_high (c3 ++ c2 ++ c1) c0 8 8).trans
     ((slice_append_high (c3 ++ c2) c1 0 8).trans
       ((slice_append_low c3 c2 0 8 (by omega)).trans (slice_all c2))),
   (slice_append_high (c3 ++ c2 ++ c1) c0 16 8).trans
     ((slice_append_high (c3 ++ c2) c1 8 8).trans
       ((slice_append_high c3 c2 0 8).trans (slice_all c3)))⟩

end Sys2Proof
end

