-- ==== Sys2Proof/Laws/ModInverse.lean ====
section
/-! SUPPORT. What the loop of the extended Euclidean algorithm computes (40_modular_inverse.md R57 (a), (b), (d)), said
once: later proofs cite `eeaLoop_spec` and never unfold the loop. -/

namespace Sys2Proof.Machine

/-- R57 (a), (b): from r0 > 0 and r1 ≥ 0 with enough fuel, the loop ends with r0 = gcd and keeps a·t ≡ r modulo n. -/
theorem eeaLoop_spec (a n : Int) (fuel : Nat) :
    ∀ r0 r1 t0 t1 : Int, 0 < r0 → 0 ≤ r1 → r1 ≤ fuel → a * t0 ≡ r0 [ZMOD n] → a * t1 ≡ r1 [ZMOD n] →
      (eeaLoop fuel r0 r1 t0 t1).1 = Int.gcd r0 r1 ∧
      a * (eeaLoop fuel r0 r1 t0 t1).2 ≡ Int.gcd r0 r1 [ZMOD n] := by
  induction fuel with
  | zero =>
    intro r0 r1 t0 t1 h0 h1 hf ha _
    obtain rfl : r1 = 0 := by omega
    have hg : (Int.gcd r0 0 : Int) = r0 := by rw [Int.gcd_zero_right]; omega
    simpa only [eeaLoop, hg, true_and] using ha
  | succ fuel ih =>
    intro r0 r1 t0 t1 h0 h1 hf ha hb
    by_cases hz : r1 = 0
    · subst hz
      have hg : (Int.gcd r0 0 : Int) = r0 := by rw [Int.gcd_zero_right]; omega
      simpa only [eeaLoop, if_true, hg, true_and] using ha
    · have hpos : 0 < r1 := by omega
      have hrem : r0 - r0 / r1 * r1 = r0 % r1 := by rw [Int.emod_def]; ring
      have hlt := Int.emod_lt_of_pos r0 hpos
      have hnn := Int.emod_nonneg r0 hz
      have hgcd : Int.gcd r1 (r0 % r1) = Int.gcd r0 r1 := by
        rw [Int.gcd_comm, Int.gcd_emod]
      have hc : a * (t0 - r0 / r1 * t1) ≡ r0 % r1 [ZMOD n] := by
        have h := ha.sub (hb.mul_left (r0 / r1))
        rw [← hrem]
        convert h using 1
        ring
      have h := ih r1 (r0 % r1) t1 (t0 - r0 / r1 * t1) hpos hnn (by omega) hb hc
      rw [hgcd] at h
      simpa only [eeaLoop, hz, if_false, fdiv, hrem] using h

/-- R57 (d): for n ≥ 2 the algorithm fails when gcd(a, n) ≠ 1 and else answers the inverse reduced into 0 .. n − 1. -/
theorem eeaInverse_cases (a n : Int) (hn : 2 ≤ n) :
    (Int.gcd a n ≠ 1 ∧ eeaInverse a n = .error .notInvertible) ∨
    (Int.gcd a n = 1 ∧ ∃ x, eeaInverse a n = .ok x ∧ 0 ≤ x ∧ x < n ∧ a * x ≡ 1 [ZMOD n]) := by
  have hpos : 0 < n := by omega
  have hm := Int.emod_lt_of_pos a hpos
  have hm0 := Int.emod_nonneg a (show n ≠ 0 by omega)
  have hspec := eeaLoop_spec a n n.toNat n (a % n) 0 1 hpos hm0 (by omega)
    (by simp [Int.ModEq]) (by rw [mul_one]; exact (Int.mod_modEq a n).symm)
  have hg : Int.gcd n (a % n) = Int.gcd a n := by rw [Int.gcd_comm, Int.gcd_emod]
  rw [hg] at hspec
  obtain ⟨hr, ht⟩ := hspec
  by_cases h1 : Int.gcd a n = 1
  · right
    refine ⟨h1, (eeaLoop n.toNat n (a % n) 0 1).2 % n, ?_, Int.emod_nonneg _ (by omega),
      Int.emod_lt_of_pos _ hpos, ?_⟩
    · simp only [eeaInverse, emod, hr, h1, Nat.cast_one, ne_eq, not_true_eq_false, if_false]
    · rw [h1, Nat.cast_one] at ht
      exact ((Int.mod_modEq _ n).mul_left a).trans ht
  · left
    refine ⟨h1, ?_⟩
    have : ((Int.gcd a n : Nat) : Int) ≠ 1 := by exact_mod_cast h1
    simp only [eeaInverse, emod, hr, ne_eq, this, not_false_eq_true, if_true]

end Sys2Proof.Machine
end

