-- ==== Sys2Proof/Laws/State.lean ====
section
/-! SUPPORT. One lemma per field per update of the state, each true by unfolding, so that no later proof unfolds a
record update. -/

namespace Sys2Proof.Machine

variable (s : State) (k : Option Key) (p : Phase) (r : Response)

@[simp] theorem withKey_key : (s.withKey k).key = k := rfl
@[simp] theorem withKey_phase : (s.withKey k).phase = s.phase := rfl
@[simp] theorem withKey_edges : (s.withKey k).edges = s.edges := rfl
@[simp] theorem withKey_delivered : (s.withKey k).delivered = s.delivered := rfl

@[simp] theorem withPhase_key : (s.withPhase p).key = s.key := rfl
@[simp] theorem withPhase_phase : (s.withPhase p).phase = p := rfl
@[simp] theorem withPhase_edges : (s.withPhase p).edges = s.edges := rfl
@[simp] theorem withPhase_delivered : (s.withPhase p).delivered = s.delivered := rfl

@[simp] theorem tick_key : s.tick.key = s.key := rfl
@[simp] theorem tick_phase : s.tick.phase = s.phase := rfl
@[simp] theorem tick_edges : s.tick.edges = s.edges.tail := rfl
@[simp] theorem tick_delivered : s.tick.delivered = s.delivered := rfl

@[simp] theorem resetBlock_key : (resetBlock s).key = none := rfl
@[simp] theorem resetBlock_phase : (resetBlock s).phase = .idle := rfl
@[simp] theorem resetBlock_edges : (resetBlock s).edges = s.edges := rfl
@[simp] theorem resetBlock_delivered : (resetBlock s).delivered = s.delivered := rfl

@[simp] theorem deliver_key : (deliver r s).key = s.key := rfl
@[simp] theorem deliver_phase : (deliver r s).phase = .idle := rfl
@[simp] theorem deliver_edges : (deliver r s).edges = s.edges := rfl
@[simp] theorem deliver_delivered : (deliver r s).delivered = s.delivered ++ [r] := rfl

end Sys2Proof.Machine
end

