-- ==== Sys2Proof/Laws/Ops.lean ====
section
/-! SUPPORT. For each shared operation, what it can do, said once: the ends of a command, the ports, and the shape of
every command's answer. -/

namespace Sys2Proof.Machine

/-- A command that ends by `respond` only changes the phase. -/
theorem respond_eq (cnt : Nat) (res : Word) (s : State) :
    respond cnt res s = s.withPhase (.responding ⟨.ok, BitVec.ofNat 3 cnt, res⟩) := rfl

/-- A command that ends by `raise` only changes the phase (R82). -/
theorem raise_eq (e : Err) (s : State) :
    raise e s = s.withPhase (.responding ⟨.err e, 0#3, 0#32⟩) := rfl

/-- An optional result is one item or none (R12). -/
theorem respondOptional_eq (v : Option Word) (s : State) :
    respondOptional v s =
      s.withPhase (.responding ⟨.ok, if v.isSome then 1#3 else 0#3, v.getD 0#32⟩) := by
  cases v <;> rfl

/-- R72: the response to DECC is output by its `cnt` low lanes. -/
@[simp] theorem appended_decc (c : Byte) (r : Response) : appended (.decc c) r = outputOf r := rfl

/-- R72: the response to DECV is output by its `cnt` low lanes. -/
@[simp] theorem appended_decv (lm : BitVec 4) (c0 c1 c2 c3 : Byte) (r : Response) :
    appended (.decv lm c0 c1 c2 c3) r = outputOf r := rfl

/-- Acceptance takes the command only when it is valid (R91). -/
theorem accept_cases (e : Edge) (s : State) :
    (e.cmdValid = true ∧ accept e s = s.withPhase (.executing e.cmd)) ∨
    (e.cmdValid = false ∧ accept e s = s) := by
  cases h : e.cmdValid <;> simp [accept, h]

/-- A waiting response is delivered or held (R91 (d)). -/
theorem offer_cases (e : Edge) (r : Response) (s : State) :
    (e.respReady = true ∧ offer e r s = deliver r s) ∨ (e.respReady = false ∧ offer e r s = s) := by
  cases h : e.respReady <;> simp [offer, h]

/-- What a command can do: a key slot `k` that differs from the old one only under SETKEY, and one response. -/
theorem exec_shape (i : Instr) (s : State) :
    ∃ k r, exec i s = .next ((s.withKey k).withPhase (.responding r)) ∧
      ((∀ a b n, i ≠ .setkey a b n) → k = s.key) := by
  cases i with
  | modinv a n =>
    simp only [exec, execModinv]
    split <;> exact ⟨s.key, _, rfl, fun _ => rfl⟩
  | enc v c => exact ⟨s.key, _, by simp only [exec, execEnc, respondOptional_eq]; rfl, fun _ => rfl⟩
  | dec v x => exact ⟨s.key, _, rfl, fun _ => rfl⟩
  | setkey a b n =>
    simp only [exec, execSetkey]
    split <;> exact ⟨_, _, rfl, fun h => absurd rfl (h a b n)⟩
  | decc c =>
    simp only [exec, execDecc]
    split
    · exact ⟨s.key, _, rfl, fun _ => rfl⟩
    · exact ⟨s.key, _, by rw [respondOptional_eq]; rfl, fun _ => rfl⟩
  | decv lm c0 c1 c2 c3 =>
    simp only [exec, execDecv]
    split <;> exact ⟨s.key, _, rfl, fun _ => rfl⟩
  | rdkey sel =>
    simp only [exec, execRdkey]
    split
    · exact ⟨s.key, _, rfl, fun _ => rfl⟩
    · split
      · exact ⟨s.key, _, rfl, fun _ => rfl⟩
      · split
        · exact ⟨s.key, _, rfl, fun _ => rfl⟩
        · split <;> exact ⟨s.key, _, rfl, fun _ => rfl⟩

end Sys2Proof.Machine
end

