-- ==== Sys2Proof/Laws/PerInstr.lean ====
section
/-! SUPPORT. One statement about every command as syntax, constructor by constructor: its encoded instruction word
meets the mask and match of its own row (30_encoding.md R47). -/

namespace Sys2Proof.Laws.EncodedWord

/-- R47: `(inst AND mask) = match` for the instruction word that `encode` writes. -/
def Statement (i : Instr) : Prop :=
  i.wf = true → instField (encode i) &&& rowMask i.opcode = rowMatch i.opcode

theorem modinv (a n : Word) : Statement (.modinv a n) := by
  intro _
  rw [encode, instField_bundle]
  have h : 0x0001#16 &&& rowMask .modinv = rowMatch .modinv := by decide
  exact h

theorem enc (v : Variant) (c : Byte) : Statement (.enc v c) := by
  intro _
  rw [encode, instField_bundle]
  have h : ∀ b : BitVec 1, (0#7 ++ b ++ 0x02#8) &&& rowMask .enc = rowMatch .enc := by decide
  exact h (variantBit v)

theorem dec (v : Variant) (i : Word) : Statement (.dec v i) := by
  intro _
  rw [encode, instField_bundle]
  have h : ∀ b : BitVec 1, (0#7 ++ b ++ 0x03#8) &&& rowMask .dec = rowMatch .dec := by decide
  exact h (variantBit v)

theorem setkey (a b n : Word) : Statement (.setkey a b n) := by
  intro _
  rw [encode, instField_bundle]
  have h : 0x0004#16 &&& rowMask .setkey = rowMatch .setkey := by decide
  exact h

theorem decc (c : Byte) : Statement (.decc c) := by
  intro _
  rw [encode, instField_bundle]
  have h : 0x0005#16 &&& rowMask .decc = rowMatch .decc := by decide
  exact h

theorem decv (lm : BitVec 4) (c0 c1 c2 c3 : Byte) : Statement (.decv lm c0 c1 c2 c3) := by
  intro _
  rw [encode, instField_bundle]
  have h : ∀ m : BitVec 4, (m ++ 0x006#12) &&& rowMask .decv = rowMatch .decv := by decide
  exact h lm

theorem rdkey (sel : BitVec 3) : Statement (.rdkey sel) := by
  intro _
  rw [encode, instField_bundle]
  have h : ∀ x : BitVec 3, (0#4 ++ x ++ 0#1 ++ 0x07#8) &&& rowMask .rdkey = rowMatch .rdkey := by decide
  exact h sel

end Sys2Proof.Laws.EncodedWord
end

