-- ==== Sys2Proof/Laws/Step.lean ====
section
/-! SUPPORT. What one step can do, said once: the five things that can happen at a clock edge
(70_reset_and_hazards.md R89, R91). -/

namespace Sys2Proof.Machine

/-- A step is a reset, an edge at an idle block, a stalled edge, the completion of a command, or an offered response. -/
theorem step_cases {s t : State} (h : step s = .next t) :
    (s.edge.rst = true ∧ t = resetBlock s.tick) ∨
    (s.edge.rst = false ∧ s.phase = .idle ∧ t = accept s.edge s.tick) ∨
    (∃ cmd, s.edge.rst = false ∧ s.phase = .executing cmd ∧ s.edge.stall = true ∧ t = s.tick) ∨
    (∃ cmd, s.edge.rst = false ∧ s.phase = .executing cmd ∧ s.edge.stall = false ∧
      executeCommand cmd s.tick = .next t) ∨
    (∃ r, s.edge.rst = false ∧ s.phase = .responding r ∧ t = offer s.edge r s.tick) := by
  unfold step at h
  by_cases hr : s.edge.rst = true
  · rw [if_pos hr] at h
    injection h with h
    exact .inl ⟨hr, h.symm⟩
  · rw [if_neg hr] at h
    have hr : s.edge.rst = false := by simpa using hr
    split at h
    · injection h with h
      exact .inr (.inl ⟨hr, ‹_›, h.symm⟩)
    · cases hs : s.edge.stall
      · rw [hs, if_neg Bool.false_ne_true] at h
        exact .inr (.inr (.inr (.inl ⟨_, hr, ‹_›, rfl, h⟩)))
      · rw [hs, if_pos rfl] at h
        injection h with h
        exact .inr (.inr (.inl ⟨_, hr, ‹_›, rfl, h.symm⟩))
    · injection h with h
      exact .inr (.inr (.inr (.inr ⟨_, hr, ‹_›, h.symm⟩)))

/-- What a whole command as presented can do: a new key slot and one response, nothing else. -/
theorem executeCommand_shape (cmd : Cmd) (s : State) :
    ∃ k r, executeCommand cmd s = .next ((s.withKey k).withPhase (.responding r)) := by
  unfold executeCommand
  split
  · obtain ⟨k, r, h, -⟩ := exec_shape ‹_› s
    exact ⟨k, r, h⟩
  · exact ⟨s.key, _, rfl⟩

end Sys2Proof.Machine
end

