-- ==== Sys2Proof/Tests/Slice0.lean ====
section
/-! SUPPORT. Tests on fixed values, their expected results taken from 95_test_vectors.md or worked by hand from the
rules, and for every obligation with hypotheses a witness that they can be met together. -/

namespace Sys2Proof.Tests
open Sys2Proof.Machine

/-! ### Helpers -/

/-- The key (5, 8, 26) with a_inv = 21 (95_test_vectors.md E1, E2). -/
def key26 : Key := { a := 5#32, b := 8#32, n := .latin26, ainv := 21#5 }

/-- The key (7, 3, 27) with a_inv = 4 (95_test_vectors.md section 2.3). -/
def key27 : Key := { a := 7#32, b := 3#32, n := .latin27, ainv := 4#5 }

/-- The key (5, −2^31, 26) with a_inv = 21, the extreme shift (95_test_vectors.md section 2.3). -/
def keyLow : Key := { a := 5#32, b := 0x80000000#32, n := .latin26, ainv := 21#5 }

/-- The reset state with a key put into the slot. -/
def keyed (k : Key) : State := State.reset.withKey (some k)

/-- The response of one command, as `status / cnt / res`. -/
def answer (i : Instr) (s : State) : Option (BitVec 4 × BitVec 3 × Word) :=
  (answerOf i s).map fun r => (statusCode r.status, r.cnt, r.res)

/-- The key slot after one command. -/
def slotAfter (i : Instr) (s : State) : Option (Option Key) :=
  match exec i s with
  | .next t => some t.key
  | .fault _ => none
  | .refused _ => none

/-- What `step` does to the key slot and to the response on the port. -/
def stepped (s : State) : Option (Option Key × Option Response) :=
  match step s with
  | .next t => some (t.key, respOut t)
  | .fault _ => none
  | .refused _ => none

/-- The phase and the delivered responses after one step. -/
def phaseAfter (s : State) : Option (Phase × List Response) :=
  match step s with
  | .next t => some (t.phase, t.delivered)
  | .fault _ => none
  | .refused _ => none

/-- An edge at which the host presents a command. -/
def present (cmd : Cmd) : Edge := { quietEdge with cmdValid := true, cmd := cmd }

/-- An edge at which `rst` is high. -/
def resetEdge : Edge := { quietEdge with rst := true }

/-! ### Parameters, tables, codes -/

/-- R5: the types have the widths of the parameters. -/
theorem test_widths :
    Word = BitVec Config.W ∧ Byte = BitVec Config.CW ∧ IndexBits = BitVec Config.IW ∧
    InstWord = BitVec Config.IWIDTH ∧ Config.LANES * Config.CW = Config.W ∧ Config.interfaceVersion = 1 ∧
    alphabetSize .latin26 = Config.nSmall ∧ alphabetSize .latin27 = Config.nLarge :=
  ⟨rfl, rfl, rfl, rfl, rfl, rfl, rfl, rfl⟩

/-- R31, R32: T26[i] = 0x41 + i; T27 is T26 with 0xD1 at index 14. -/
theorem test_tables :
    t26 = (List.range 26).map (fun i => BitVec.ofNat 8 (0x41 + i)) ∧
    t27 = t26.take 14 ++ [0xD1#8] ++ t26.drop 14 := by decide

/-- R9: the examples of the rule. -/
theorem test_emod_examples :
    emod (-5) 26 = 21 ∧ emod (-1) 27 = 26 ∧ emod 26 26 = 0 ∧ emod (-2147483648) 26 = 2 ∧ fdiv (-5) 26 = -1 := by
  decide

/-- R48, R75: a NoKey response as bits. -/
theorem test_response_bits :
    respBits { status := .err .noKey, cnt := 0#3, res := 0#32 } = BitVec.ofNat 39 (3 * 2 ^ 35) ∧
    respBits { status := .ok, cnt := 2#3, res := 0x5347#32 } = BitVec.ofNat 39 (2 * 2 ^ 32 + 0x5347) := by decide

/-! ### WellFormed and Decode -/

/-- R49: the one check refuses RDKEY 5, and passes RDKEY 4. -/
theorem test_wf_refuses_reserved_register :
    (Instr.rdkey 5#3).wf = false ∧ (Instr.rdkey 4#3).wf = true := by decide

/-- R47: MODINV, word written out bit by bit. -/
theorem test_decode_modinv :
    decode (bundle 0b0000000000000001#16 5#32 0xDEADBEEF#32 26#32) = .ok (.modinv 5#32 26#32) := by decide

/-- R47: ENC.27, `s` = bit 8. -/
theorem test_decode_enc :
    decode (bundle 0b0000000100000010#16 0xFFFFFF41#32 0#32 0#32) = .ok (.enc .latin27 0x41#8) := by decide

/-- R47: DEC.26 and DEC.27. -/
theorem test_decode_dec :
    decode (bundle 0b0000000000000011#16 14#32 0#32 0#32) = .ok (.dec .latin26 14#32) ∧
    decode (bundle 0b0000000100000011#16 14#32 0#32 0#32) = .ok (.dec .latin27 14#32) := by decide

/-- R47: SETKEY. -/
theorem test_decode_setkey :
    decode (bundle 0b0000000000000100#16 5#32 8#32 26#32) = .ok (.setkey 5#32 8#32 26#32) := by decide

/-- R47: DECC. -/
theorem test_decode_decc :
    decode (bundle 0b0000000000000101#16 0xABCDEF49#32 0#32 0#32) = .ok (.decc 0x49#8) := by decide

/-- R47, R35: DECV 0b1010, lane 0 is the least significant byte. -/
theorem test_decode_decv :
    decode (bundle 0b1010000000000110#16 0x49204A4B#32 0#32 0#32) =
      .ok (.decv 0b1010#4 0x4B#8 0x4A#8 0x20#8 0x49#8) := by decide

/-- R47: RDKEY AINV, `sel` = 4 in bits 11 to 9. -/
theorem test_decode_rdkey :
    decode (bundle 0b0000100000000111#16 0x12345678#32 0#32 0#32) = .ok (.rdkey 4#3) := by decide

/-- 95_test_vectors.md section 2.4: illegal words, one for each case of R49. -/
theorem test_decode_rejects :
    [0x0000#16, 0x0008#16, 0x00FF#16, 0x0101#16, 0x0202#16, 0x0106#16, 0x1007#16, 0x0A07#16, 0x0E07#16].map decodeInst =
      [.error .opcodeZero, .error .opcodeReserved, .error .opcodeReserved, .error .unusedFieldNotZero,
       .error .unusedFieldNotZero, .error .unusedFieldNotZero, .error .unusedFieldNotZero,
       .error .registerReserved, .error .registerReserved] := by decide

/-- The table's own numbering: the 16 bits of `inst`, operands zero. -/
theorem test_table_word :
    decodeTableWord 16 0xF006 = some (.decv 0b1111#4 0#8 0#8 0#8 0#8) ∧ decodeTableWord 16 0x0A07 = none := by decide

/-- R53: `DECV 0b1111, 'H', 'O', 'L', 'A'` is inst 0xF006, opa 0x414C4F48. -/
theorem test_encode_decv :
    encode (.decv 0b1111#4 0x48#8 0x4F#8 0x4C#8 0x41#8) = bundle 0xF006#16 0x414C4F48#32 0#32 0#32 := by decide

/-! ### The commands -/

/-- Section 2.1: `MODINV -5, 26`, `MODINV 17, 3120`, `MODINV -2147483648, 27`, `MODINV -1, 2147483647`. -/
theorem test_modinv_values :
    answer (.modinv 0xFFFFFFFB#32 26#32) State.reset = some (0#4, 1#3, 5#32) ∧
    answer (.modinv 17#32 3120#32) State.reset = some (0#4, 1#3, 0xAC1#32) ∧
    answer (.modinv 0x80000000#32 27#32) State.reset = some (0#4, 1#3, 0x16#32) ∧
    answer (.modinv 0xFFFFFFFF#32 0x7FFFFFFF#32) State.reset = some (0#4, 1#3, 0x7FFFFFFE#32) := by decide

/-- Section 2.1: NotInvertible, and BadModulus first (R81); the key is not touched. -/
theorem test_modinv_errors :
    answer (.modinv 13#32 26#32) State.reset = some (1#4, 0#3, 0#32) ∧
    answer (.modinv 0#32 0#32) State.reset = some (4#4, 0#3, 0#32) ∧
    answer (.modinv 5#32 1#32) State.reset = some (4#4, 0#3, 0#32) ∧
    slotAfter (.modinv 13#32 26#32) (keyed key26) = some (some key26) := by decide

/-- Section 2.2: Ñ and ñ in the two variants. -/
theorem test_enc_enye :
    answer (.enc .latin27 0xF1#8) State.reset = some (0#4, 1#3, 14#32) ∧
    answer (.enc .latin26 0xD1#8) State.reset = some (0#4, 0#3, 0#32) := by decide

/-- Section 2.2: the neighbours of the letter ranges, and O shifted by Ñ. -/
theorem test_enc_boundaries :
    answer (.enc .latin26 0x40#8) State.reset = some (0#4, 0#3, 0#32) ∧
    answer (.enc .latin26 0x61#8) State.reset = some (0#4, 1#3, 0#32) ∧
    answer (.enc .latin26 0x7B#8) State.reset = some (0#4, 0#3, 0#32) ∧
    answer (.enc .latin27 0x4F#8) State.reset = some (0#4, 1#3, 15#32) ∧
    answer (.enc .latin27 0x7A#8) State.reset = some (0#4, 1#3, 26#32) := by decide

/-- Section 2.2: index 14 and index −1. -/
theorem test_dec_values :
    answer (.dec .latin27 14#32) State.reset = some (0#4, 1#3, 0xD1#32) ∧
    answer (.dec .latin26 0xFFFFFFFF#32) State.reset = some (0#4, 1#3, 0x5A#32) := by decide

/-- Section 2.2: the extreme indices. -/
theorem test_dec_extremes :
    answer (.dec .latin27 0x7FFFFFFF#32) State.reset = some (0#4, 1#3, 0x4B#32) ∧
    answer (.dec .latin27 0x80000000#32) State.reset = some (0#4, 1#3, 0x50#32) := by decide

/-- Section 2.3: `SETKEY 5, 8, 26` and `SETKEY -21, -2147483648, 26`. -/
theorem test_setkey_installs :
    answer (.setkey 5#32 8#32 26#32) State.reset = some (0#4, 1#3, 21#32) ∧
    slotAfter (.setkey 5#32 8#32 26#32) (keyed key27) = some (some key26) ∧
    slotAfter (.setkey 0xFFFFFFEB#32 0x80000000#32 26#32) State.reset =
      some (some { a := 0xFFFFFFEB#32, b := 0x80000000#32, n := .latin26, ainv := 21#5 }) := by decide

/-- Sections 2.3, 2.4: a failure clears the key, and the size is checked first. -/
theorem test_setkey_fails :
    answer (.setkey 14#32 0#32 28#32) (keyed key26) = some (2#4, 0#3, 0#32) ∧
    slotAfter (.setkey 14#32 0#32 28#32) (keyed key26) = some none ∧
    answer (.setkey 9#32 3#32 27#32) (keyed key27) = some (1#4, 0#3, 0#32) ∧
    slotAfter (.setkey 9#32 3#32 27#32) (keyed key27) = some none := by decide

/-- Section 2.3: `I` to `A`, lower case alike, `,` absent, the extreme shift. -/
theorem test_decc_letters :
    answer (.decc 0x49#8) (keyed key26) = some (0#4, 1#3, 0x41#32) ∧
    answer (.decc 0x69#8) (keyed key26) = some (0#4, 1#3, 0x41#32) ∧
    answer (.decc 0x2C#8) (keyed key26) = some (0#4, 0#3, 0#32) ∧
    answer (.decc 0x41#8) (keyed keyLow) = some (0#4, 1#3, 0x4B#32) := by decide

/-- Section 2.3: `ñ` under the two alphabets, and no key. -/
theorem test_decc_variant :
    answer (.decc 0xF1#8) (keyed key27) = some (0#4, 1#3, 0x51#32) ∧
    answer (.decc 0xF1#8) (keyed key26) = some (0#4, 0#3, 0#32) ∧
    answer (.decc 0x2C#8) State.reset = some (3#4, 0#3, 0#32) := by decide

/-- Section 2.5: two absent lanes, compacted; and Ñ in the output. -/
theorem test_decv_compacts :
    answer (.decv 0b1111#4 0x2C#8 0x20#8 0x4D#8 0x55#8) (keyed key26) = some (0#4, 2#3, 0x5347#32) ∧
    answer (.decv 0b1111#4 0x54#8 0x44#8 0x2C#8 0x20#8) (keyed key27) = some (0#4, 2#3, 0x41D1#32) := by decide

/-- Sections 2.4, 2.5: the mask selects lanes 1 and 3; no lane; no key with no lane. -/
theorem test_decv_masks :
    answer (.decv 0b1010#4 0x49#8 0x4A#8 0x20#8 0x49#8) (keyed key26) = some (0#4, 2#3, 0x4156#32) ∧
    answer (.decv 0b0000#4 0x49#8 0x49#8 0x49#8 0x49#8) (keyed key26) = some (0#4, 0#3, 0#32) ∧
    answer (.decv 0b0000#4 0x41#8 0x41#8 0x41#8 0x41#8) State.reset = some (3#4, 0#3, 0#32) := by decide

/-- Section 2.6: N as an integer, B with its sign, AINV. -/
theorem test_rdkey_values :
    answer (.rdkey 3#3) (keyed key27) = some (0#4, 1#3, 27#32) ∧
    answer (.rdkey 2#3) (keyed keyLow) = some (0#4, 1#3, 0x80000000#32) ∧
    answer (.rdkey 4#3) (keyed key26) = some (0#4, 1#3, 21#32) := by decide

/-- Section 2.6: after reset STATUS reads 0 and A raises NoKey. -/
theorem test_rdkey_without_key :
    answer (.rdkey 0#3) State.reset = some (0#4, 1#3, 0#32) ∧
    answer (.rdkey 1#3) State.reset = some (3#4, 0#3, 0#32) := by decide

/-! ### The step -/

/-- Section 2.4: inst 0x0104 (SETKEY with `s` set) under a key: IllegalCommand, the key unchanged. -/
theorem test_step_illegal :
    stepped ((keyed key26).withFetchWord 16 0x0104) =
      some (some key26, some { status := .err .illegalCommand, cnt := 0#3, res := 0#32 }) := by decide

/-- The very next step after `withFetchWord` runs the word: RDKEY STATUS. -/
theorem test_step_runs_the_word :
    stepped ((keyed key26).withFetchWord 16 0x0007) =
      some (some key26, some { status := .ok, cnt := 1#3, res := 1#32 }) := by decide

/-- R89: a reset edge ends a session; R91: a valid command at an idle edge is accepted, none answered yet. -/
theorem test_step_reset_and_accept :
    stepped { keyed key26 with edges := [resetEdge] } = some (none, none) ∧
    stepped { keyed key26 with edges := [present 0x0007#112] } = some (some key26, none) := by decide

/-! ### Assembler lines -/

/-- R53: `MODINV 17, -26`. -/
theorem test_spell_modinv :
    spell (.modinv 17 (-26)) = ['M', 'O', 'D', 'I', 'N', 'V', ' ', '1', '7', ',', ' ', '-', '2', '6'] := by decide

/-- R54: `DECS "HOLA, "` expands to `DECV 0b1111, 'H', 'O', 'L', 'A'` and `DECV 0b0011, ',', ' ', 0, 0`. -/
theorem test_decs_example :
    assemble (.decs [0x48#8, 0x4F#8, 0x4C#8, 0x41#8, 0x2C#8, 0x20#8]) =
      [.decv 0b1111#4 0x48#8 0x4F#8 0x4C#8 0x41#8, .decv 0b0011#4 0x2C#8 0x20#8 0#8 0#8] := by decide

/-- 95_test_vectors.md P1, commands 2 and 4: the host outputs the letter of DECC and nothing of SETKEY. -/
theorem test_session_outputs_decoded_letters :
    (session [.setkey 5#32 8#32 26#32, .decc 0x49#8] State.reset).map (fun p => p.2) = some [0x41#8] := by decide

/-! ### Witnesses for the obligations' hypotheses -/

/-- A state with a command that completes at the next edge. -/
def busy : State := (keyed key26).withFetchWord 16 0x0007

theorem witness_StepRunsTheDecodedCommand :
    busy.phase = .executing (tableCmd 16 0x0007) ∧ busy.edge.rst = false ∧ busy.edge.stall = false ∧
    decode (tableCmd 16 0x0007) = .ok (.rdkey 0#3) := by decide

theorem witness_IllegalCommandsAreAnswered : 0x0000#16 ∉ legalInst ∧ 0x0A07#16 ∉ legalInst := by decide

theorem witness_DecodeOfEncodeIsTheCommand : (Instr.rdkey 4#3).wf = true ∧ (Instr.rdkey 0#3).wf = true := by decide

theorem witness_EncodeOfDecodeKeepsTheInstWord : decode (tableCmd 16 0x0807) = .ok (.rdkey 4#3) := by decide

/-- The bound of the register numbers in OperandsAreReadFromTheirFields. -/
theorem witness_OperandsAreReadFromTheirFields : (4#3 : BitVec 3) ≤ 4#3 := by decide

/-- The clauses of the contract meet at n = 1 and n = 2, and at gcd 1. -/
theorem witness_TheEuclideanAlgorithmMeetsTheContract :
    (1 : Int) ≤ 1 ∧ (2 : Int) ≤ 2 ∧ Int.gcd 0 2 ≠ 1 ∧ Int.gcd 1 2 = 1 := by decide

theorem witness_ModinvFactsHold : modinv 5 26 = .ok 21 ∧ (2 : Int) ≤ 2 := by decide

theorem witness_TheEuclideanLoopEndsByItself : (2 : Int) ≤ 26 ∧ (26 : Int).toNat ≤ 64 := by decide

theorem witness_ModinvAnswersTheInverse :
    2 ≤ (26#32).toInt ∧ (0 : Int) ≤ 21 ∧ 21 < (26#32).toInt ∧ emod ((5#32).toInt * 21) (26#32).toInt = 1 := by decide

/-- Both clauses of DecAnswersTheLetterModuloTheSize at the ends of the tables. -/
theorem witness_DecAnswersTheLetterModuloTheSize :
    ((0xFFFFFFFF#32).toInt = ((25 : Nat) : Int) + (-1) * 26 ∧ 25 < 26) ∧
    ((0xFFFFFFFF#32).toInt = ((26 : Nat) : Int) + (-1) * 27 ∧ 26 < 27) ∧
    ((14#32).toInt = ((14 : Nat) : Int) + 0 * 27) := by decide

/-- The hypotheses of the codec laws at the last index of each alphabet. -/
theorem witness_TheCodecLawsHold :
    enc .latin26 0x7A#8 = some 25 ∧ enc .latin27 0x7A#8 = some 26 ∧ 26 < alphabetSize .latin27 := by decide

theorem witness_SetkeyInstallsTheKey :
    (27#32).toInt = alphabetSize .latin27 ∧ (0 : Int) ≤ 4 ∧ 4 < (27#32).toInt ∧
    emod ((7#32).toInt * 4) (27#32).toInt = 1 := by decide

/-- A successful SETKEY, as KeyRegistersReadBackWhatSetkeyStored and TheValidFlagFollowsSetkeyAndReset suppose. -/
theorem witness_KeyRegistersReadBackWhatSetkeyStored :
    (answerOf (.setkey 5#32 8#32 26#32) State.reset).map (·.status) = some .ok := by decide

theorem witness_TheValidFlagFollowsSetkeyAndReset :
    isSetkey (.decc 0x41#8) = false ∧ State.edge { keyed key26 with edges := [resetEdge] } = resetEdge ∧
    resetEdge.rst = true := by decide

/-- The clauses of DeccDecodesByTheFormula: the letter I, and a comma. -/
theorem witness_DeccDecodesByTheFormula :
    (keyed key26).key = some key26 ∧ enc key26.n 0x49#8 = some 8 ∧ 0 < alphabetSize key26.n ∧
    emod ((key26.ainv.toNat : Int) * ((8 : Nat) + alphabetSize key26.n - key26.b.toInt)) (alphabetSize key26.n) =
      ((0 : Nat) : Int) ∧ enc key26.n 0x2C#8 = none := by decide

theorem witness_DeccInvertsTheAffineCipher :
    (keyed key26).key = some key26 ∧ KeyValid key26 ∧ 7 < alphabetSize key26.n ∧
    enc key26.n 0x52#8 = some (encryptIndex key26 7) := by decide

theorem witness_DecodingIsABijectionOfTheAlphabet :
    KeyValid key26 ∧ KeyValid key27 ∧ 26 < alphabetSize key27.n := by decide

theorem witness_DecodingKeepsTheLettersOfTheAlphabet : enc .latin27 0xF1#8 = some 14 := by decide

theorem witness_DecvPacksTheDecodedLanes :
    (keyed key26).key = some key26 ∧
    decodeText (loadKey key26) (selectLanes 0b1111#4 0x48#8 0x4F#8 0x4C#8 0x41#8) =
      [0x46#8, 0x57#8, 0x4C#8, 0x4F#8] := by decide

theorem witness_UnselectedLanesHaveNoEffect :
    (0b0001#4).getLsbD 0 = true ∧ (0b0001#4).getLsbD 1 = false ∧ (0b0001#4).getLsbD 2 = false ∧
    (0b0001#4).getLsbD 3 = false := by decide

theorem witness_DecodedTextFactsHold : 0x41#8 ∈ decodeText (loadKey key26) [0x49#8] := by decide

theorem witness_DecodingAnEncryptedTextGivesThePlaintext : KeyValid key27 := by decide

theorem witness_AnyGroupingDecodesTheWholeText :
    (keyed key26).key = some key26 ∧
    ([Instr.decc 0x49#8, .decv 0b0011#4 0x4A#8 0x2C#8 0#8 0#8].all isDecode) = true := by decide

theorem witness_DecsPresentsTheTextInOrder :
    (expandDecs [0x48#8, 0x4F#8, 0x4C#8, 0x41#8, 0x2C#8])[1]? = some (.decv 0b0001#4 0x2C#8 0#8 0#8 0#8) := by decide

/-- The clauses of RdkeyReadsTheKeyRegisters: without and with a key, and at the bounds of the register numbers. -/
theorem witness_RdkeyReadsTheKeyRegisters :
    State.reset.key = none ∧ (keyed key27).key = some key27 ∧ 1#3 ≤ (1#3 : BitVec 3) ∧ 1#3 ≤ (4#3 : BitVec 3) ∧
    (4#3 : BitVec 3) < 5#3 := by decide

theorem witness_NotInvertibleIsRaisedForCommonFactors :
    2 ≤ (4#32).toInt ∧ Int.gcd (2#32).toInt (4#32).toInt ≠ 1 ∧ (27#32).toInt = 27 ∧
    Int.gcd (9#32).toInt (27#32).toInt ≠ 1 ∧
    (answerOf (.modinv 2#32 4#32) State.reset).map (·.status) = some (.err .notInvertible) := by decide

theorem witness_InvalidAlphabetSizeIsRaisedBySetkey :
    (25#32).toInt ≠ 26 ∧ (28#32).toInt ≠ 27 ∧ (25#32).toInt ≠ 27 ∧ (28#32).toInt ≠ 26 ∧
    (answerOf (.setkey 0#32 5#32 25#32) State.reset).map (·.status) = some (.err .invalidAlphabetSize) := by decide

theorem witness_NoKeyIsRaisedWithoutAKey :
    State.reset.key = none ∧ isDecode (.decc 0x2C#8) = true ∧ 1#3 ≤ (4#3 : BitVec 3) ∧ (4#3 : BitVec 3) ≤ 4#3 ∧
    (answerOf (.rdkey 4#3) State.reset).map (·.status) = some (.err .noKey) := by decide

theorem witness_BadModulusIsRaisedByModinv :
    (1#32).toInt ≤ 1 ∧ (0x80000000#32).toInt ≤ 1 ∧
    (answerOf (.modinv 5#32 1#32) State.reset).map (·.status) = some (.err .badModulus) := by decide

/-- An error of SETKEY and one of another command, for ErrorsWriteNothingButAFailedSetkey. -/
theorem witness_ErrorsWriteNothingButAFailedSetkey :
    (answerOf (.setkey 13#32 0#32 26#32) (keyed key26)).map (·.status) = some (.err .notInvertible) ∧
    (answerOf (.modinv 13#32 26#32) (keyed key26)).map (·.status) = some (.err .notInvertible) := by decide

theorem witness_CommandsChangeOnlyTheResponseAndSetkeyTheSlot :
    slotAfter (.decc 0x41#8) (keyed key26) = some (some key26) ∧ isSetkey (.decc 0x41#8) = false := by decide

theorem witness_ItemCountsFollowTheCommand :
    (answerOf (.decc 0x49#8) (keyed key26)).map (·.status) = some .ok ∧
    (answerOf (.decc 0x49#8) State.reset).map (·.status) = some (.err .noKey) := by decide

/-- Two different states with one key slot, for AnswersDependOnTheKeySlotAlone. -/
theorem witness_AnswersDependOnTheKeySlotAlone :
    (keyed key26).key = busy.key ∧ keyed key26 ≠ busy ∧ isDecode (.modinv 5#32 26#32) = false := by decide

/-- A step that changes the key slot: SETKEY completes. -/
theorem witness_OnlySetkeyAndResetChangeTheSlot :
    (stepped ((keyed key26).withFetchWord 16 0x0004)).map (·.1) = some none ∧
    ((keyed key26).withFetchWord 16 0x0004).key = some key26 := by decide

/-- A valid state with a key and a command in progress, for EveryStepKeepsTheStateValid. -/
theorem witness_EveryStepKeepsTheStateValid : StateValid busy := by
  refine ⟨fun k hk => ?_, fun r hr => ?_, fun r hr => ?_⟩
  · obtain rfl : key26 = k := Option.some.inj hk
    decide
  · exact Phase.noConfusion hr
  · exact absurd hr List.not_mem_nil

theorem witness_ResetClearsTheKeyAndAbandonsTheCommand :
    (State.edge { busy with edges := [resetEdge] }).rst = true := by decide

/-- A SETKEY presented, stalled once, then reset. -/
theorem witness_AnAbandonedCommandHasNoEffect :
    (keyed key26).phase = .idle ∧ (present (tableCmd 16 0x0004)).rst = false ∧
    (present (tableCmd 16 0x0004)).cmdValid = true ∧
    ([{ quietEdge with stall := true }].all fun e : Edge => !e.rst && e.stall) = true ∧ resetEdge.rst = true := by decide

/-- A response that waits while the host is not ready, for TheHandshakeKeepsItsGuarantees. -/
theorem witness_TheHandshakeKeepsItsGuarantees :
    stepped { keyed key26 with
      phase := .responding { status := .ok, cnt := 1#3, res := 21#32 },
      edges := [{ quietEdge with respReady := false }] } =
      some (some key26, some { status := .ok, cnt := 1#3, res := 21#32 }) := by decide

/-- For the other clauses of TheHandshakeKeepsItsGuarantees: a command accepted; a command completing, whose response
then waits; a response taken, after an earlier one. -/
theorem witness_TheHandshakeKeepsItsGuarantees_clauses :
    phaseAfter { keyed key26 with edges := [present (tableCmd 16 0x0007)] } =
      some (.executing (tableCmd 16 0x0007), []) ∧
    phaseAfter { keyed key26 with phase := .executing (tableCmd 16 0x0007) } =
      some (.responding { status := .ok, cnt := 1#3, res := 1#32 }, []) ∧
    phaseAfter { keyed key26 with
      phase := .responding { status := .ok, cnt := 1#3, res := 1#32 },
      delivered := [{ status := .ok, cnt := 0#3, res := 0#32 }] } =
      some (.idle, [{ status := .ok, cnt := 0#3, res := 0#32 }, { status := .ok, cnt := 1#3, res := 1#32 }]) := by
  decide

/-- An edge without `rst` for each clause of NothingHappensButACommandOrAReset: no command presented, one presented, a
command stalled, a response not taken. -/
theorem witness_NothingHappensButACommandOrAReset :
    (quietEdge.rst = false ∧ quietEdge.cmdValid = false) ∧
    ((present (tableCmd 16 0x0007)).rst = false ∧ (present (tableCmd 16 0x0007)).cmdValid = true) ∧
    phaseAfter { keyed key26 with
      phase := .executing (tableCmd 16 0x0007), edges := [{ quietEdge with stall := true }] } =
      some (.executing (tableCmd 16 0x0007), []) ∧
    phaseAfter { keyed key26 with
      phase := .responding { status := .ok, cnt := 1#3, res := 1#32 },
      edges := [{ quietEdge with respReady := false }] } =
      some (.responding { status := .ok, cnt := 1#3, res := 1#32 }, []) := by decide

/-- A command with one edge of latency and one edge of the host's delay. -/
theorem witness_EveryAcceptedCommandIsAnsweredOnce :
    (keyed key26).phase = .idle ∧ (present (tableCmd 16 0x0007)).rst = false ∧
    (present (tableCmd 16 0x0007)).cmdValid = true ∧
    ([{ quietEdge with stall := true }].all fun e : Edge => !e.rst && e.stall) = true ∧
    quietEdge.rst = false ∧ quietEdge.stall = false ∧
    ([{ quietEdge with respReady := false }].all fun e : Edge => !e.rst && !e.respReady) = true ∧
    quietEdge.respReady = true := by decide

end Sys2Proof.Tests
end

section
/-! PROOFS of the family 00_scope.md: the step (R16, R91, R93), the modular inverse (R55 to R57), and what decoding
under a key does to the letters of the alphabet (R65 to R69). -/

namespace Sys2Proof.Machine

/-! ### The step -/

/-- Settles O1: whatever the edge samples, each thing that a step can do ends in a next state, the completion of a
command by `executeCommand_shape`. -/
theorem stepAlwaysAnswersANextState : Obligations.StepAlwaysAnswersANextState := by
  unfold Obligations.StepAlwaysAnswersANextState
  intro s
  unfold step
  by_cases hr : s.edge.rst = true
  · exact ⟨_, if_pos hr⟩
  · rw [if_neg hr]
    cases s.phase with
    | idle => exact ⟨_, rfl⟩
    | responding r => exact ⟨_, rfl⟩
    | executing cmd =>
      by_cases hs : s.edge.stall = true
      · exact ⟨_, if_pos hs⟩
      · obtain ⟨k, r, h⟩ := executeCommand_shape cmd s.tick
        exact ⟨_, (if_neg hs).trans h⟩

/-- R47: an instruction word that is accepted as RDKEY names a register of at most 4. -/
theorem selField_le_of_decodeInst_rdkey {inst : InstWord} (h : decodeInst inst = .ok .rdkey) :
    selField inst ≤ 4#3 := by
  unfold decodeInst at h
  split at h
  · cases h
  · split at h
    · cases h
    · split at h
      · cases h
      · next hsel =>
        cases h
        exact BitVec.not_lt.mp fun hlt => hsel ⟨rfl, hlt⟩

/-- R49: whatever decodes is well-formed. -/
theorem decode_wf {cmd : Cmd} {i : Instr} (h : decode cmd = .ok i) : i.wf = true := by
  unfold decode at h
  split at h
  · cases h
  · next o ho =>
    cases h
    cases o with
    | rdkey => exact decide_eq_true (selField_le_of_decodeInst_rdkey ho)
    | modinv | enc | dec | setkey | decc | decv => rfl

/-- A legal command is executed as the instruction it decodes to (R16). -/
theorem executeCommand_of_decode {cmd : Cmd} {i : Instr} (h : decode cmd = .ok i) (s : State) :
    executeCommand cmd s = exec i s := by
  rw [executeCommand, h]

/-- The edge that neither resets nor stalls completes the command in progress (R91). -/
theorem step_executing {s : State} {cmd : Cmd} (hp : s.phase = .executing cmd) (hr : s.edge.rst = false)
    (hs : s.edge.stall = false) : step s = executeCommand cmd s.tick := by
  simp [step, hp, hr, hs]

/-- Settles O2: the completing step is `executeCommand`, which runs the decoded instruction. -/
theorem stepRunsTheDecodedCommand : Obligations.StepRunsTheDecodedCommand := by
  unfold Obligations.StepRunsTheDecodedCommand
  intro s cmd i hp hr hs hd
  exact ⟨decode_wf hd, (step_executing hp hr hs).trans (executeCommand_of_decode hd s.tick)⟩

/-! ### The modular inverse -/

/-- R9: a remainder lies in 0 .. n − 1. -/
theorem emod_range (z : Int) {n : Int} (hn : 0 < n) : 0 ≤ emod z n ∧ emod z n < n :=
  ⟨Int.emod_nonneg z hn.ne', Int.emod_lt_of_pos z hn⟩

/-- Residues in 0 .. n − 1 that agree modulo n are equal. -/
theorem eq_of_modEq_of_range {x y n : Int} (h : x ≡ y [ZMOD n]) (hx : 0 ≤ x) (hxn : x < n) (hy : 0 ≤ y)
    (hyn : y < n) : x = y := by
  rwa [Int.ModEq, Int.emod_eq_of_lt hx hxn, Int.emod_eq_of_lt hy hyn] at h

/-- R9: for n ≥ 2, a product has remainder 1 exactly when it is 1 modulo n. -/
theorem emod_eq_one_iff {z n : Int} (hn : 2 ≤ n) : emod z n = 1 ↔ z ≡ 1 [ZMOD n] := by
  rw [Int.ModEq, Int.emod_eq_of_lt (by omega : (0 : Int) ≤ 1) (by omega)]

/-- Two inverses of the same integer agree modulo n. -/
theorem inverse_unique {a x y n : Int} (hx : a * x ≡ 1 [ZMOD n]) (hy : a * y ≡ 1 [ZMOD n]) :
    x ≡ y [ZMOD n] := by
  calc x = x * 1 := (mul_one x).symm
    _ ≡ x * (a * y) [ZMOD n] := hy.symm.mul_left x
    _ = (a * x) * y := by ring
    _ ≡ 1 * y [ZMOD n] := hx.mul_right y
    _ = y := one_mul y

/-- An integer with an inverse modulo n is coprime to n. -/
theorem gcd_eq_one_of_inverse {a x n : Int} (h : a * x ≡ 1 [ZMOD n]) : Int.gcd a n = 1 := by
  obtain ⟨q, hq⟩ := h.dvd
  exact Int.isCoprime_iff_gcd_eq_one.mp ⟨x, q, by linarith⟩

/-- R55: `modinv` succeeds with x exactly when n ≥ 2 and x is the inverse of a in 0 .. n − 1. -/
theorem modinv_eq_ok_iff {a n x : Int} :
    modinv a n = .ok x ↔ 2 ≤ n ∧ 0 ≤ x ∧ x < n ∧ a * x ≡ 1 [ZMOD n] := by
  by_cases hn : n ≤ 1
  · simp only [modinv, hn, if_true, reduceCtorEq, false_iff]
    rintro ⟨h2, -⟩
    omega
  · have h2 : 2 ≤ n := by omega
    rw [modinv, if_neg hn]
    constructor
    · intro h
      obtain ⟨-, he⟩ | ⟨-, y, he, hy⟩ := eeaInverse_cases a n h2
      · cases he.symm.trans h
      · cases he.symm.trans h
        exact ⟨h2, hy⟩
    · rintro ⟨-, hx, hxn, hax⟩
      obtain ⟨hg, -⟩ | ⟨-, y, he, hy, hyn, hay⟩ := eeaInverse_cases a n h2
      · exact absurd (gcd_eq_one_of_inverse hax) hg
      · rw [he, eq_of_modEq_of_range (inverse_unique hay hax) hy hyn hx hxn]

/-- R57 (f): `modinv` looks at its first argument modulo n only. -/
theorem modinv_congr {a b n : Int} (h : a ≡ b [ZMOD n]) : modinv a n = modinv b n := by
  have he : emod a n = emod b n := h
  simp only [modinv, eeaInverse, he]

/-- R57 (g): 0 is nobody's inverse. -/
theorem ne_zero_of_modinv {a n x : Int} (h : modinv a n = .ok x) : x ≠ 0 := by
  obtain ⟨hn, -, -, hax⟩ := modinv_eq_ok_iff.mp h
  rintro rfl
  have h01 : (0 : Int) = 1 :=
    eq_of_modEq_of_range (by rwa [mul_zero] at hax) le_rfl (by omega) (by omega) (by omega)
  omega

/-- R57 (h): 1 is its own inverse. -/
theorem modinv_one {n : Int} (hn : 2 ≤ n) : modinv 1 n = .ok 1 :=
  modinv_eq_ok_iff.mpr ⟨hn, by omega, by omega, rfl⟩

/-- R57 (h): the inverse of −1 is n − 1. -/
theorem modinv_neg_one {n : Int} (hn : 2 ≤ n) : modinv (-1) n = .ok (n - 1) :=
  modinv_eq_ok_iff.mpr ⟨hn, by omega, by omega, Int.modEq_iff_dvd.mpr ⟨1, by ring⟩⟩

/-- R57 (i): inverting the inverse gives the argument reduced. -/
theorem modinv_of_modinv {a n x : Int} (h : modinv a n = .ok x) : modinv x n = .ok (emod a n) := by
  obtain ⟨hn, -, -, hax⟩ := modinv_eq_ok_iff.mp h
  obtain ⟨hnn, hlt⟩ := emod_range a (show 0 < n by omega)
  refine modinv_eq_ok_iff.mpr ⟨hn, hnn, hlt, ?_⟩
  calc x * emod a n ≡ x * a [ZMOD n] := (Int.mod_modEq a n).mul_left x
    _ = a * x := mul_comm x a
    _ ≡ 1 [ZMOD n] := hax

/-- Settles O13 from the characterisation `modinv_eq_ok_iff` of the inverse. -/
theorem modinvFactsHold : Obligations.ModinvFactsHold := by
  unfold Obligations.ModinvFactsHold
  refine ⟨fun a n k => modinv_congr (Int.add_mul_emod_self_right a k n), fun a n x => ne_zero_of_modinv,
    fun n hn => ⟨modinv_one hn, modinv_neg_one hn, ?_⟩, fun a n x => modinv_of_modinv⟩
  have hcongr : n - 1 ≡ -1 [ZMOD n] := Int.modEq_iff_dvd.mpr ⟨-1, by ring⟩
  exact (modinv_congr hcongr).trans (modinv_neg_one hn)

/-- The loop of R56 stops at once when r1 = 0. -/
theorem eeaLoop_zero (fuel : Nat) (r0 t0 t1 : Int) : eeaLoop fuel r0 0 t0 t1 = (r0, t0) := by
  cases fuel <;> rfl

/-- R57 (b): r1 strictly decreases, so any two bounds of at least r1 rounds give the loop the same result. -/
theorem eeaLoop_fuel_irrelevant (f : Nat) :
    ∀ (g : Nat) (r0 r1 t0 t1 : Int), 0 ≤ r1 → r1 ≤ f → r1 ≤ g →
      eeaLoop f r0 r1 t0 t1 = eeaLoop g r0 r1 t0 t1 := by
  induction f with
  | zero =>
    intro g r0 r1 t0 t1 h0 hf _
    obtain rfl : r1 = 0 := by omega
    simp only [eeaLoop_zero]
  | succ f ih =>
    intro g r0 r1 t0 t1 h0 hf hg
    by_cases hz : r1 = 0
    · subst hz
      simp only [eeaLoop_zero]
    · obtain ⟨g, rfl⟩ : ∃ g', g = g' + 1 := ⟨g - 1, by omega⟩
      have hrem : r0 - fdiv r0 r1 * r1 = emod r0 r1 := by rw [emod, Int.emod_def]; ring
      obtain ⟨hnn, hlt⟩ := emod_range r0 (show 0 < r1 by omega)
      simp only [eeaLoop, hz, if_false, hrem]
      exact ih g r1 (emod r0 r1) t1 _ hnn (by omega) (by omega)

/-- R94: five rounds end the loop for every residue modulo 26. -/
theorem eeaLoop_five_26 : ∀ r : Fin 26, eeaLoop 5 26 (r.val : Int) 0 1 = eeaLoop 26 26 (r.val : Int) 0 1 := by
  decide

/-- R94: five rounds end the loop for every residue modulo 27. -/
theorem eeaLoop_five_27 : ∀ r : Fin 27, eeaLoop 5 27 (r.val : Int) 0 1 = eeaLoop 27 27 (r.val : Int) 0 1 := by
  decide

/-- R9: a residue modulo m is one of 0 .. m − 1. -/
theorem exists_fin_eq_emod (a : Int) (m : Nat) (hm : 0 < m) : ∃ r : Fin m, emod a m = (r.val : Int) := by
  obtain ⟨hnn, hlt⟩ := emod_range a (show (0 : Int) < m by omega)
  exact ⟨⟨(emod a m).toNat, by omega⟩, by simp only [Int.toNat_of_nonneg hnn]⟩

/-- Settles O14: the bound by the decrease of r1, the five rounds by the finitely many residues modulo 26 and 27. -/
theorem theEuclideanLoopEndsByItself : Obligations.TheEuclideanLoopEndsByItself := by
  unfold Obligations.TheEuclideanLoopEndsByItself
  constructor
  · intro a n fuel hn hf
    obtain ⟨hnn, hlt⟩ := emod_range a (show 0 < n by omega)
    exact eeaLoop_fuel_irrelevant fuel n.toNat n (emod a n) 0 1 hnn (by omega) (by omega)
  · rintro a n (rfl | rfl)
    · obtain ⟨r, hr⟩ : ∃ r : Fin 26, emod a 26 = (r.val : Int) := exists_fin_eq_emod a 26 (by omega)
      rw [hr]
      exact eeaLoop_five_26 r
    · obtain ⟨r, hr⟩ : ∃ r : Fin 27, emod a 27 = (r.val : Int) := exists_fin_eq_emod a 27 (by omega)
      rw [hr]
      exact eeaLoop_five_27 r

/-! ### The decode formula -/

/-- R21: both alphabets have at least two letters. -/
theorem two_le_alphabetSize (v : Variant) : (2 : Int) ≤ alphabetSize v := by
  cases v <;> decide

/-- A decoded index lies in 0 .. n − 1 (R67, R9). -/
theorem decodeIndex_range (k : AffineKey) (ci : Nat) :
    0 ≤ decodeIndex k ci ∧ decodeIndex k ci < alphabetSize k.n :=
  emod_range _ (by have := two_le_alphabetSize k.n; omega)

/-- R69 (a): any shift that agrees with ci + n − b modulo n gives the decoded index. -/
theorem decodeIndex_eq_of_modEq {k : AffineKey} {ci : Nat} {z : Int}
    (h : (ci : Int) + alphabetSize k.n - k.b ≡ z [ZMOD alphabetSize k.n]) :
    decodeIndex k ci = emod (k.aInv * z) (alphabetSize k.n) :=
  h.mul_left k.aInv

/-- R69 (a): the n that R67 adds does not matter modulo n. -/
theorem shift_modEq (ci b n : Int) : ci + n - b ≡ ci - b [ZMOD n] :=
  Int.modEq_iff_dvd.mpr ⟨-1, by ring⟩

/-- Settles O24: the three shifts agree modulo n. -/
theorem theThreeDecodeFormsAgree : Obligations.TheThreeDecodeFormsAgree := by
  unfold Obligations.TheThreeDecodeFormsAgree
  intro k ci
  have hb : k.b ≡ emod k.b (alphabetSize k.n) [ZMOD alphabetSize k.n] := (Int.mod_modEq _ _).symm
  exact ⟨decodeIndex_eq_of_modEq (shift_modEq ci k.b (alphabetSize k.n)),
    decodeIndex_eq_of_modEq (hb.sub_left _)⟩

/-- R67: the decoded index under a stored key, modulo n. -/
theorem decodeIndex_modEq (k : Key) (ci : Nat) :
    decodeIndex (loadKey k) ci ≡ k.ainv.toNat * (ci - k.b.toInt) [ZMOD alphabetSize k.n] :=
  (Int.mod_modEq _ _).trans ((shift_modEq ci k.b.toInt (alphabetSize k.n)).mul_left _)

/-- R69 (b): the encrypted index, as an integer, is the reduced a·m + b. -/
theorem encryptIndex_cast (k : Key) (m : Nat) :
    (encryptIndex k m : Int) = emod (k.a.toInt * m + k.b.toInt) (alphabetSize k.n) := by
  have hn := two_le_alphabetSize k.n
  exact Int.toNat_of_nonneg (emod_range _ (by omega)).1

/-- An encrypted index is an index of the alphabet. -/
theorem encryptIndex_lt (k : Key) (m : Nat) : encryptIndex k m < alphabetSize k.n := by
  have hn := two_le_alphabetSize k.n
  have hlt := (emod_range (k.a.toInt * m + k.b.toInt) (show (0 : Int) < alphabetSize k.n by omega)).2
  rw [← encryptIndex_cast] at hlt
  exact_mod_cast hlt

/-- R69 (b): the encrypted index modulo n. -/
theorem encryptIndex_modEq (k : Key) (m : Nat) :
    (encryptIndex k m : Int) ≡ k.a.toInt * m + k.b.toInt [ZMOD alphabetSize k.n] := by
  rw [encryptIndex_cast]
  exact Int.mod_modEq _ _

/-- R23: the cached inverse of a valid key is an inverse of a modulo n. -/
theorem KeyValid.inverse {k : Key} (hk : KeyValid k) :
    k.a.toInt * k.ainv.toNat ≡ 1 [ZMOD alphabetSize k.n] := by
  obtain ⟨-, -, -, h⟩ := hk
  exact (emod_eq_one_iff (two_le_alphabetSize k.n)).mp h

/-- R69 (b): under a valid key the decode formula undoes the forward oracle. -/
theorem decodeIndex_encryptIndex {k : Key} (hk : KeyValid k) {m : Nat} (hm : m < alphabetSize k.n) :
    decodeIndex (loadKey k) (encryptIndex k m) = m := by
  obtain ⟨hnn, hlt⟩ := decodeIndex_range (loadKey k) (encryptIndex k m)
  refine eq_of_modEq_of_range ?_ hnn hlt (by omega) (by exact_mod_cast hm)
  calc decodeIndex (loadKey k) (encryptIndex k m)
      ≡ k.ainv.toNat * (encryptIndex k m - k.b.toInt) [ZMOD alphabetSize k.n] := decodeIndex_modEq k _
    _ ≡ k.ainv.toNat * (k.a.toInt * m + k.b.toInt - k.b.toInt) [ZMOD alphabetSize k.n] :=
      ((encryptIndex_modEq k m).sub_right _).mul_left _
    _ = k.a.toInt * k.ainv.toNat * m := by ring
    _ ≡ 1 * m [ZMOD alphabetSize k.n] := hk.inverse.mul_right _
    _ = m := one_mul _

/-- R69 (c): under a valid key the forward oracle recovers an index from the decoded index, modulo n. -/
theorem affine_decodeIndex_modEq {k : Key} (hk : KeyValid k) (ci : Nat) :
    k.a.toInt * decodeIndex (loadKey k) ci + k.b.toInt ≡ ci [ZMOD alphabetSize k.n] := by
  calc k.a.toInt * decodeIndex (loadKey k) ci + k.b.toInt
      ≡ k.a.toInt * (k.ainv.toNat * (ci - k.b.toInt)) + k.b.toInt [ZMOD alphabetSize k.n] :=
        ((decodeIndex_modEq k ci).mul_left _).add_right _
    _ = k.a.toInt * k.ainv.toNat * (ci - k.b.toInt) + k.b.toInt := by ring
    _ ≡ 1 * (ci - k.b.toInt) + k.b.toInt [ZMOD alphabetSize k.n] := (hk.inverse.mul_right _).add_right _
    _ = ci := by ring

/-- R69 (c): under a valid key two indices of the alphabet that decode alike are equal. -/
theorem eq_of_decodeIndex_eq {k : Key} (hk : KeyValid k) {ci cj : Nat} (hi : ci < alphabetSize k.n)
    (hj : cj < alphabetSize k.n) (h : decodeIndex (loadKey k) ci = decodeIndex (loadKey k) cj) : ci = cj := by
  have hmod : (ci : Int) ≡ cj [ZMOD alphabetSize k.n] :=
    (affine_decodeIndex_modEq hk ci).symm.trans (h ▸ affine_decodeIndex_modEq hk cj)
  exact Nat.ModEq.eq_of_lt_of_lt (Int.natCast_modEq_iff.mp hmod) hi hj

/-- Settles O25: the forward oracle recovers the index (injective) and gives the preimages (surjective). -/
theorem decodingIsABijectionOfTheAlphabet : Obligations.DecodingIsABijectionOfTheAlphabet := by
  unfold Obligations.DecodingIsABijectionOfTheAlphabet
  intro k hk
  exact ⟨fun ci _ => decodeIndex_range (loadKey k) ci, fun ci cj hi hj => eq_of_decodeIndex_eq hk hi hj,
    fun m hm => ⟨encryptIndex k m, encryptIndex_lt k m, decodeIndex_encryptIndex hk hm⟩⟩

/-! ### Letters and characters -/

/-- R61: an index of the alphabet is looked up as it stands. -/
theorem dec_of_lt {v : Variant} {m : Nat} (hm : m < alphabetSize v) : dec v m = (table v).getD m 0#8 := by
  have hred : emod (m : Int) (alphabetSize v) = m := Int.emod_eq_of_lt (by omega) (by exact_mod_cast hm)
  rw [dec, hred, Int.toNat_natCast]

/-- R67: a letter of the active alphabet decodes to the letter of the decoded index. -/
theorem decodeChar_of_enc {k : AffineKey} {c : Byte} {ci : Nat} (h : enc k.n c = some ci) :
    decodeChar k c = some (dec k.n (decodeIndex k ci)) := by
  rw [decodeChar, h]

/-- R69 (f): a character is absent exactly when it is no letter of the active alphabet. -/
theorem decodeChar_eq_none_iff (k : AffineKey) (c : Byte) : decodeChar k c = none ↔ enc k.n c = none := by
  cases h : enc k.n c with
  | none => simp only [decodeChar, h]
  | some ci => simp only [decodeChar_of_enc h, reduceCtorEq]

/-- R68: with a key, DECC answers the decoded character, or absent. -/
theorem exec_decc_keyed {s : State} {k : Key} (hs : s.key = some k) (c : Byte) :
    exec (.decc c) s = .next (respondOptional ((decodeChar (loadKey k) c).map fun m => m.setWidth 32) s) := by
  simp only [exec, execDecc, hs]

/-- Settles O23: the decoded index of the encrypted index m is m (`decodeIndex_encryptIndex`). -/
theorem deccInvertsTheAffineCipher : Obligations.DeccInvertsTheAffineCipher := by
  unfold Obligations.DeccInvertsTheAffineCipher
  intro c k m s hs hk hm hc
  have hletter : decodeChar (loadKey k) c = some ((table k.n).getD m 0#8) := by
    rw [decodeChar_of_enc (k := loadKey k) hc, decodeIndex_encryptIndex hk hm]
    exact congrArg some (dec_of_lt hm)
  rw [exec_decc_keyed hs, hletter]
  rfl

/-- R59: upper-casing twice is upper-casing once. -/
theorem up_up (c : Byte) : up (up c) = up c := by
  by_cases h1 : 0x61#8 ≤ c ∧ c ≤ 0x7A#8
  · have hletter : up c = c - 0x20#8 := if_pos h1
    rw [hletter, up, if_neg (by bv_omega), if_neg (by bv_omega)]
  · by_cases h2 : c = 0xF1#8
    · subst h2
      decide
    · have hother : up c = c := by rw [up, if_neg h1, if_neg h2]
      rw [hother, hother]

/-- R62 (d): a code and its upper case have the same index. -/
theorem enc_up (v : Variant) (c : Byte) : enc v (up c) = enc v c := by
  cases v <;> simp only [enc, up_up]

/-- R69 (e): case does not matter to decoding. -/
theorem decodeChar_up (k : AffineKey) (c : Byte) : decodeChar k (up c) = decodeChar k c := by
  simp only [decodeChar, enc_up]

/-- R31: T26[i] is the code 0x41 + i. -/
theorem t26_getD : ∀ i < 26, t26.getD i 0#8 = BitVec.ofNat 8 (0x41 + i) := by decide

/-- R32: T27[i] is 0x41 + i up to N, then Ñ, then 0x40 + i. -/
theorem t27_getD : ∀ i < 27, t27.getD i 0#8 =
    if i ≤ 13 then BitVec.ofNat 8 (0x41 + i) else if i = 14 then 0xD1#8 else BitVec.ofNat 8 (0x40 + i) := by
  decide

/-- R60, R62 (a): the index of a letter lies in the table, and its entry is the upper case of the letter. -/
theorem enc_some_spec {v : Variant} {c : Byte} {i : Nat} (h : enc v c = some i) :
    i < alphabetSize v ∧ (table v).getD i 0#8 = up c := by
  cases v with
  | latin26 =>
    simp only [enc, Option.ite_none_right_eq_some, Option.some.injEq] at h
    obtain ⟨⟨hlo, hhi⟩, rfl⟩ := h
    have hi : (up c).toNat - 0x41 < 26 := by bv_omega
    exact ⟨hi, (t26_getD _ hi).trans (by bv_omega)⟩
  | latin27 =>
    simp only [enc] at h
    split at h
    · cases h
      have hi : (up c).toNat - 0x41 ≤ 13 := by bv_omega
      refine ⟨show _ < 27 by omega, (t27_getD _ (by omega)).trans ?_⟩
      rw [if_pos hi]
      bv_omega
    · split at h
      · next hny =>
        cases h
        exact ⟨by decide, hny ▸ t27_getD 14 (by omega)⟩
      · rw [Option.ite_none_right_eq_some] at h
        obtain ⟨hr, h⟩ := h
        cases h
        have hlo : 15 ≤ (up c).toNat - 0x41 + 1 := by bv_omega
        have hi : (up c).toNat - 0x41 + 1 < 27 := by bv_omega
        refine ⟨hi, (t27_getD _ hi).trans ?_⟩
        rw [if_neg (by omega), if_neg (by omega)]
        bv_omega

/-- R69 (d): the key (1, 0, n) decodes every index of the alphabet to itself. -/
theorem decodeIndex_identity {v : Variant} {i : Nat} (hi : i < alphabetSize v) :
    decodeIndex { a := 1, b := 0, n := v, aInv := 1 } i = i := by
  rw [decodeIndex_eq_of_modEq (shift_modEq i 0 (alphabetSize v)), one_mul, sub_zero]
  exact Int.emod_eq_of_lt (by omega) (by exact_mod_cast hi)

/-- Settles O26: the identity key by `enc_some_spec`, case by `decodeChar_up`, absence by `decodeChar_eq_none_iff`. -/
theorem decodingKeepsTheLettersOfTheAlphabet : Obligations.DecodingKeepsTheLettersOfTheAlphabet := by
  unfold Obligations.DecodingKeepsTheLettersOfTheAlphabet
  refine ⟨fun v c i hc => ?_, fun c s => ?_, decodeChar_eq_none_iff⟩
  · obtain ⟨hi, hup⟩ := enc_some_spec hc
    rw [decodeChar_of_enc hc, decodeIndex_identity hi, ← hup]
    exact congrArg some (dec_of_lt hi)
  · simp only [exec, execDecc, decodeChar_up]

end Sys2Proof.Machine
end

section
/-! PROOFS of the family 10_state.md: what each command leaves in the state (R24, R48), the key register reads (R29,
R74), the key invariant (R23) at every step, and the round trip of a text (R73 (f)). -/

namespace Sys2Proof.Machine

/-! ### The form of a response (R48, R75) -/

/-- R75: an error response is well-formed. -/
theorem responseValid_error (e : Err) : ResponseValid ⟨.err e, 0#3, 0#32⟩ :=
  ⟨fun _ => rfl, show 0#3 ≤ 4#3 by decide, fun _ => rfl⟩

/-- R48: a response of one item is well-formed. -/
theorem responseValid_one (w : Word) : ResponseValid ⟨.ok, 1#3, w⟩ :=
  ⟨fun h => absurd rfl h, show 1#3 ≤ 4#3 by decide, fun h => absurd h (show 1#3 ≠ 0#3 by decide)⟩

/-- R12, R48: the response of a result that may be absent is well-formed. -/
theorem responseValid_optional (v : Option Word) :
    ResponseValid ⟨.ok, if v.isSome then 1#3 else 0#3, v.getD 0#32⟩ := by
  cases v with
  | none => exact ⟨fun h => absurd rfl h, by decide, fun _ => rfl⟩
  | some w => exact responseValid_one w

/-- R71: a mask selects at most the four lanes. -/
theorem length_selectLanes_le (lm : BitVec 4) (c0 c1 c2 c3 : Byte) :
    (selectLanes lm c0 c1 c2 c3).length ≤ 4 := by
  have hlane : ∀ (b : Bool) (c : Byte), (if b then [c] else []).length ≤ 1 := by
    intro b c
    cases b
    · exact Nat.zero_le 1
    · exact le_rfl
  have h0 := hlane (lm.getLsbD 0) c0
  have h1 := hlane (lm.getLsbD 1) c1
  have h2 := hlane (lm.getLsbD 2) c2
  have h3 := hlane (lm.getLsbD 3) c3
  simp only [selectLanes, List.length_append]
  omega

/-- R71: up to four packed characters with their number make a well-formed response. -/
theorem responseValid_packLanes {out : List Byte} (h : out.length ≤ 4) :
    ResponseValid ⟨.ok, BitVec.ofNat 3 out.length, packLanes out⟩ := by
  refine ⟨fun h => absurd rfl h, by bv_omega, fun h0 => ?_⟩
  have hlen : out.length = 0 := by
    have := congrArg BitVec.toNat h0
    simp only [BitVec.toNat_ofNat] at this
    omega
  rw [List.length_eq_zero_iff.mp hlen]
  rfl

/-! ### The key register reads (R29, R74) -/

/-- R74: a reserved register number is an illegal command, whatever the slot. -/
theorem exec_rdkey_reserved {sel : BitVec 3} (h : 4#3 < sel) (s : State) :
    exec (.rdkey sel) s = .next (s.withPhase (.responding ⟨.err .illegalCommand, 0#3, 0#32⟩)) := by
  simp only [exec, execRdkey, if_pos h, raise_eq]

/-- R74: STATUS always answers. -/
theorem exec_rdkey_status (s : State) :
    exec (.rdkey 0#3) s = .next (s.withPhase (.responding ⟨.ok, 1#3, statusWord s⟩)) := rfl

/-- R74: without a key the registers 1 to 4 raise NoKey. -/
theorem exec_rdkey_noKey {s : State} (hs : s.key = none) {sel : BitVec 3} (h1 : 1#3 ≤ sel) (h4 : sel ≤ 4#3) :
    exec (.rdkey sel) s = .next (s.withPhase (.responding ⟨.err .noKey, 0#3, 0#32⟩)) := by
  have h0 : sel ≠ 0#3 := by bv_omega
  simp only [exec, execRdkey, if_neg (BitVec.not_lt.mpr h4), if_neg h0, hs, raise_eq]

/-- R29: the register numbers of a key are 1 to 4. -/
theorem exists_keyRegister_iff {sel : BitVec 3} (k : Key) :
    (∃ w, keyRegister sel k = some w) ↔ 1#3 ≤ sel ∧ sel ≤ 4#3 := by
  simp only [← Option.isSome_iff_exists, keyRegister, apply_ite Option.isSome, Option.isSome_some,
    Option.isSome_none]
  revert sel
  decide

/-- R74: with a key the registers 1 to 4 answer their words. -/
theorem exec_rdkey_register {s : State} {k : Key} (hs : s.key = some k) {sel : BitVec 3} {w : Word}
    (hw : keyRegister sel k = some w) :
    exec (.rdkey sel) s = .next (s.withPhase (.responding ⟨.ok, 1#3, w⟩)) := by
  obtain ⟨h1, h4⟩ := (exists_keyRegister_iff k).mp ⟨w, hw⟩
  have h0 : sel ≠ 0#3 := by bv_omega
  simp only [exec, execRdkey, if_neg (BitVec.not_lt.mpr h4), if_neg h0, hs, hw, respond_eq]

/-- R28: STATUS reads 0 without a key. -/
theorem statusWord_of_none {s : State} (hs : s.key = none) : statusWord s = 0#32 := by
  rw [statusWord, kv, hs]
  rfl

/-- R28: STATUS reads 1 with a key. -/
theorem statusWord_of_some {s : State} {k : Key} (hs : s.key = some k) : statusWord s = 1#32 := by
  rw [statusWord, kv, hs]
  rfl

/-- Settles O33: one lemma about RDKEY for each clause, N by the two alphabets. -/
theorem rdkeyReadsTheKeyRegisters : Obligations.RdkeyReadsTheKeyRegisters := by
  unfold Obligations.RdkeyReadsTheKeyRegisters
  intro s
  refine ⟨fun hs => ?_, fun k hs => ⟨?_, exec_rdkey_register hs rfl, exec_rdkey_register hs rfl, ?_, ?_⟩,
    fun hs sel h1 h4 => exec_rdkey_noKey hs h1 h4, fun sel h => exec_rdkey_reserved h s⟩
  · rw [exec_rdkey_status, statusWord_of_none hs]
  · rw [exec_rdkey_status, statusWord_of_some hs]
  · rw [exec_rdkey_register hs (sel := 3#3) rfl]
    cases k.n <;> rfl
  · rw [exec_rdkey_register hs (sel := 4#3) rfl, BitVec.ofNat_toNat]

/-! ### SETKEY (R65, R66) -/

/-- R21, R65: the alphabet of an integer is the one of that size. -/
theorem eq_alphabetSize_of_variantOfSize {n : Int} {v : Variant} (h : variantOfSize n = some v) :
    n = alphabetSize v := by
  unfold variantOfSize at h
  split at h
  · next hn =>
    cases h
    exact hn
  · split at h
    · next hn =>
      cases h
      exact hn
    · cases h

/-- R65: `make_key` succeeds with a, b as given, the alphabet of size n and the inverse of a. -/
theorem makeKey_eq_ok {a b n : Int} {k : AffineKey} (h : makeKey a b n = .ok k) :
    k.a = a ∧ k.b = b ∧ n = alphabetSize k.n ∧ modinv a n = .ok k.aInv := by
  unfold makeKey at h
  split at h
  · cases h
  · next v hv =>
    split at h
    · cases h
    · next x hx =>
      cases h
      exact ⟨rfl, rfl, eq_alphabetSize_of_variantOfSize hv, hx⟩

/-- R9, R21, R23: an inverse in 0 .. n − 1 fits the five bits of `KEY.AINV`. -/
theorem toNat_ofInt_ainv {x : Int} {v : Variant} (h0 : 0 ≤ x) (hn : x < alphabetSize v) :
    ((BitVec.ofInt 5 x).toNat : Int) = x := by
  have hsize : alphabetSize v ≤ 27 := by cases v <;> decide
  rw [BitVec.toNat_ofInt]
  omega

/-- R23, R66: the key that a successful SETKEY stores is valid. -/
theorem keyValid_storeKey {a b n : Word} {k : AffineKey} (h : makeKey a.toInt b.toInt n.toInt = .ok k) :
    KeyValid (storeKey k) := by
  obtain ⟨ha, -, hn, hinv⟩ := makeKey_eq_ok h
  obtain ⟨h2, h0, hlt, hax⟩ := modinv_eq_ok_iff.mp hinv
  have hne := ne_zero_of_modinv hinv
  have hstored : (storeKey k).a.toInt = a.toInt := by
    simp only [storeKey, ha, BitVec.ofInt_toInt]
  have hainv : ((storeKey k).ainv.toNat : Int) = k.aInv := toNat_ofInt_ainv h0 (hn ▸ hlt)
  have hsize : (alphabetSize (storeKey k).n : Int) = n.toInt := hn.symm
  have hinverse : emod (a.toInt * k.aInv) n.toInt = 1 := (emod_eq_one_iff h2).mpr hax
  refine ⟨?_, by omega, by omega, ?_⟩
  · rw [hstored, hsize]
    exact gcd_eq_one_of_inverse hax
  · rwa [hstored, hainv, hsize]

/-- R65, R66: SETKEY fails and clears the slot, or stores a valid key of its operands and answers the inverse; which
of the two does not depend on the state. -/
theorem exec_setkey_cases (a b n : Word) :
    (∃ e, ∀ s, exec (.setkey a b n) s =
      .next ((s.withKey none).withPhase (.responding ⟨.err e, 0#3, 0#32⟩))) ∨
    (∃ k : Key, KeyValid k ∧ k.a = a ∧ k.b = b ∧ n.toInt = alphabetSize k.n ∧ ∀ s, exec (.setkey a b n) s =
      .next ((s.withKey (some k)).withPhase (.responding ⟨.ok, 1#3, k.ainv.setWidth 32⟩))) := by
  cases hk : makeKey a.toInt b.toInt n.toInt with
  | error e => exact .inl ⟨e, fun s => by simp only [exec, execSetkey, hk, raise_eq]⟩
  | ok k =>
    obtain ⟨ha, hb, hn, -⟩ := makeKey_eq_ok hk
    refine .inr ⟨storeKey k, keyValid_storeKey hk, ?_, ?_, hn, fun s => ?_⟩
    · simp only [storeKey, ha, BitVec.ofInt_toInt]
    · simp only [storeKey, hb, BitVec.ofInt_toInt]
    · simp only [exec, execSetkey, hk, respond_eq, storeKey]

/-! ### Every command is a function of the key slot (R24, R37) -/

/-- R58: MODINV answers the same in every state and changes nothing else. -/
theorem exec_modinv_pure (a n : Word) :
    ∃ r, ResponseValid r ∧ ∀ s, exec (.modinv a n) s = .next (s.withPhase (.responding r)) := by
  cases h : modinv a.toInt n.toInt with
  | error e => exact ⟨_, responseValid_error e, fun s => by simp only [exec, execModinv, h, raise_eq]⟩
  | ok x =>
    exact ⟨_, responseValid_one (BitVec.ofInt 32 x), fun s => by simp only [exec, execModinv, h, respond_eq]⟩

/-- R63: ENC answers the same in every state and changes nothing else. -/
theorem exec_enc_pure (v : Variant) (c : Byte) :
    ∃ r, ResponseValid r ∧ ∀ s, exec (.enc v c) s = .next (s.withPhase (.responding r)) :=
  ⟨_, responseValid_optional _, fun s => congrArg Host.Outcome.next (respondOptional_eq _ s)⟩

/-- R64: DEC answers the same in every state and changes nothing else. -/
theorem exec_dec_pure (v : Variant) (x : Word) :
    ∃ r, ResponseValid r ∧ ∀ s, exec (.dec v x) s = .next (s.withPhase (.responding r)) :=
  ⟨_, responseValid_one _, fun _ => rfl⟩

/-- R68: DECC answers by the key slot alone and changes nothing else. -/
theorem exec_decc_of_slot (c : Byte) (slot : Option Key) :
    ∃ r, ResponseValid r ∧ ∀ s, s.key = slot → exec (.decc c) s = .next (s.withPhase (.responding r)) := by
  cases slot with
  | none => exact ⟨_, responseValid_error .noKey, fun s hs => by simp only [exec, execDecc, hs, raise_eq]⟩
  | some k =>
    exact ⟨_, responseValid_optional _, fun s hs => by rw [exec_decc_keyed hs, respondOptional_eq]⟩

/-- R71: DECV answers by the key slot alone and changes nothing else. -/
theorem exec_decv_of_slot (lm : BitVec 4) (c0 c1 c2 c3 : Byte) (slot : Option Key) :
    ∃ r, ResponseValid r ∧
      ∀ s, s.key = slot → exec (.decv lm c0 c1 c2 c3) s = .next (s.withPhase (.responding r)) := by
  cases slot with
  | none => exact ⟨_, responseValid_error .noKey, fun s hs => by simp only [exec, execDecv, hs, raise_eq]⟩
  | some k =>
    have hlen : (decodeText (loadKey k) (selectLanes lm c0 c1 c2 c3)).length ≤ 4 :=
      (List.length_filterMap_le _ _).trans (length_selectLanes_le lm c0 c1 c2 c3)
    exact ⟨_, responseValid_packLanes hlen, fun s hs => by simp only [exec, execDecv, hs, respond_eq]⟩

/-- R74: RDKEY answers by the key slot alone and changes nothing else. -/
theorem exec_rdkey_of_slot (sel : BitVec 3) (slot : Option Key) :
    ∃ r, ResponseValid r ∧ ∀ s, s.key = slot → exec (.rdkey sel) s = .next (s.withPhase (.responding r)) := by
  by_cases h4 : 4#3 < sel
  · exact ⟨_, responseValid_error _, fun s _ => exec_rdkey_reserved h4 s⟩
  by_cases h0 : sel = 0#3
  · subst h0
    exact ⟨_, responseValid_one ((BitVec.ofBool slot.isSome).setWidth 32), fun s hs => by
      rw [exec_rdkey_status, statusWord, kv, hs]⟩
  have h1 : 1#3 ≤ sel := by bv_omega
  have h4 : sel ≤ 4#3 := BitVec.not_lt.mp h4
  cases slot with
  | none => exact ⟨_, responseValid_error _, fun s hs => exec_rdkey_noKey hs h1 h4⟩
  | some k =>
    obtain ⟨w, hw⟩ := (exists_keyRegister_iff k).mpr ⟨h1, h4⟩
    exact ⟨_, responseValid_one w, fun s hs => exec_rdkey_register hs hw⟩

/-- A command other than SETKEY leaves a well-formed response determined by the key slot, and changes nothing else. -/
theorem exec_of_not_setkey {i : Instr} (hi : isSetkey i = false) (slot : Option Key) :
    ∃ r, ResponseValid r ∧ ∀ s, s.key = slot → exec i s = .next (s.withPhase (.responding r)) := by
  cases i with
  | modinv a n =>
    obtain ⟨r, hr, h⟩ := exec_modinv_pure a n
    exact ⟨r, hr, fun s _ => h s⟩
  | enc v c =>
    obtain ⟨r, hr, h⟩ := exec_enc_pure v c
    exact ⟨r, hr, fun s _ => h s⟩
  | dec v x =>
    obtain ⟨r, hr, h⟩ := exec_dec_pure v x
    exact ⟨r, hr, fun s _ => h s⟩
  | setkey a b n => cases hi
  | decc c => exact exec_decc_of_slot c slot
  | decv lm c0 c1 c2 c3 => exact exec_decv_of_slot lm c0 c1 c2 c3 slot
  | rdkey sel => exact exec_rdkey_of_slot sel slot

/-- R24: the one command that may write the slot is SETKEY. -/
theorem isSetkey_eq_true_iff {i : Instr} : isSetkey i = true ↔ ∃ a b n, i = .setkey a b n := by
  cases i <;> simp [isSetkey]

/-- R23: the empty slot is valid. -/
theorem slotValid_none : SlotValid none := fun _ h => nomatch h

/-- R23: a slot with a valid key is valid. -/
theorem slotValid_some {k : Key} (hk : KeyValid k) : SlotValid (some k) := by
  intro k' h
  cases h
  exact hk

/-- What any command does, as a function of the key slot: the new slot, valid if the old one was and the same but
under SETKEY, and a well-formed response. -/
theorem exec_of_slot (i : Instr) (slot : Option Key) :
    ∃ k r, (isSetkey i = false → k = slot) ∧ (SlotValid slot → SlotValid k) ∧ ResponseValid r ∧
      ∀ s, s.key = slot → exec i s = .next ((s.withKey k).withPhase (.responding r)) := by
  cases hi : isSetkey i with
  | false =>
    obtain ⟨r, hr, h⟩ := exec_of_not_setkey hi slot
    refine ⟨slot, r, fun _ => rfl, id, hr, fun s hs => ?_⟩
    subst hs
    exact h s rfl
  | true =>
    obtain ⟨a, b, n, rfl⟩ := isSetkey_eq_true_iff.mp hi
    obtain ⟨e, h⟩ | ⟨k, hk, -, -, -, h⟩ := exec_setkey_cases a b n
    · exact ⟨none, _, nofun, fun _ => slotValid_none, responseValid_error e, fun s _ => h s⟩
    · exact ⟨some k, _, nofun, fun _ => slotValid_some hk, responseValid_one _, fun s _ => h s⟩

/-- Settles O39: `exec_of_slot` names the whole next state. -/
theorem commandsChangeOnlyTheResponseAndSetkeyTheSlot :
    Obligations.CommandsChangeOnlyTheResponseAndSetkeyTheSlot := by
  unfold Obligations.CommandsChangeOnlyTheResponseAndSetkeyTheSlot
  intro i s t ht
  obtain ⟨k, r, hk, -, -, h⟩ := exec_of_slot i s.key
  cases ht.symm.trans (h s rfl)
  exact ⟨⟨r, rfl⟩, rfl, rfl, hk⟩

/-- The answer of a command is the response it leaves on the port. -/
theorem answerOf_of_exec {i : Instr} {s u : State} {r : Response}
    (h : exec i s = .next (u.withPhase (.responding r))) : answerOf i s = some r := by
  rw [answerOf, h]
  rfl

/-- R37: a command that reads no key register has one answer in all states. -/
theorem answerOf_const {i : Instr} (hd : isDecode i = false) (hr : ∀ sel, i ≠ .rdkey sel) :
    ∃ r, ∀ s, answerOf i s = some r := by
  cases i with
  | modinv a n =>
    obtain ⟨r, -, h⟩ := exec_modinv_pure a n
    exact ⟨r, fun s => answerOf_of_exec (h s)⟩
  | enc v c =>
    obtain ⟨r, -, h⟩ := exec_enc_pure v c
    exact ⟨r, fun s => answerOf_of_exec (h s)⟩
  | dec v x =>
    obtain ⟨r, -, h⟩ := exec_dec_pure v x
    exact ⟨r, fun s => answerOf_of_exec (h s)⟩
  | setkey a b n =>
    obtain ⟨e, h⟩ | ⟨k, -, -, -, -, h⟩ := exec_setkey_cases a b n
    · exact ⟨_, fun s => answerOf_of_exec (h s)⟩
    · exact ⟨_, fun s => answerOf_of_exec (h s)⟩
  | decc c => cases hd
  | decv lm c0 c1 c2 c3 => cases hd
  | rdkey sel => exact absurd rfl (hr sel)

/-- Settles O41: `exec_of_slot` gives slot and answer for all states with one key slot, `answerOf_const` the answer for
all states. -/
theorem answersDependOnTheKeySlotAlone : Obligations.AnswersDependOnTheKeySlotAlone := by
  unfold Obligations.AnswersDependOnTheKeySlotAlone
  intro i s t
  refine ⟨fun hst => ?_, fun ⟨hd, hr⟩ => ?_⟩
  · obtain ⟨k, r, -, -, -, h⟩ := exec_of_slot i t.key
    refine ⟨(answerOf_of_exec (h s hst)).trans (answerOf_of_exec (h t rfl)).symm, fun u w hu hw => ?_⟩
    cases hu.symm.trans (h s hst)
    cases hw.symm.trans (h t rfl)
    rfl
  · obtain ⟨r, h⟩ := answerOf_const hd hr
    exact (h s).trans (h t).symm

/-! ### What a step does to the key slot (R24, R89) -/

/-- R89: `rst` sampled high resets the block. -/
theorem step_of_rst {s : State} (hr : s.edge.rst = true) : step s = .next (resetBlock s.tick) := by
  rw [step, if_pos hr]

/-- Settles O20: SETKEY by `exec_setkey_cases`, the other commands by their frame (O39), reset by `step_of_rst`. -/
theorem theValidFlagFollowsSetkeyAndReset : Obligations.TheValidFlagFollowsSetkeyAndReset := by
  unfold Obligations.TheValidFlagFollowsSetkeyAndReset
  refine ⟨fun a b n s t r ht hr => ?_, fun i s t hi ht => ?_, fun s t hrst ht => ?_⟩
  · obtain ⟨e, h⟩ | ⟨k, -, -, -, -, h⟩ := exec_setkey_cases a b n
    · cases ht.symm.trans (h s)
      cases hr
      exact ⟨nofun, nofun⟩
    · cases ht.symm.trans (h s)
      cases hr
      exact ⟨fun _ => rfl, fun _ => rfl⟩
  · obtain ⟨-, -, -, hkey⟩ := commandsChangeOnlyTheResponseAndSetkeyTheSlot i s t ht
    rw [kv, kv, hkey hi]
  · cases ht.symm.trans (step_of_rst hrst)
    rfl

/-- R22: the cached inverse as a word is the same integer. -/
theorem toInt_setWidth_ainv (x : IndexBits) : (x.setWidth 32).toInt = x.toNat := by
  have hx : x.toNat < 2 ^ 5 := x.isLt
  have hw : (x.setWidth 32).toNat = x.toNat := by
    rw [BitVec.toNat_setWidth]
    omega
  rw [BitVec.toInt_eq_toNat_of_lt (by omega), hw]

/-- R21: a word that reads as the size of an alphabet is the word that `KEY.N` reads as. -/
theorem ofNat_alphabetSize {n : Word} {v : Variant} (hn : n.toInt = alphabetSize v) :
    BitVec.ofNat 32 (alphabetSize v) = n := by
  rw [← BitVec.ofInt_natCast, ← hn, BitVec.ofInt_toInt]

/-- Settles O21: the slot and the answer of a SETKEY that responds OK are those of a valid key (`exec_setkey_cases`),
which RDKEY reads. -/
theorem keyRegistersReadBackWhatSetkeyStored : Obligations.KeyRegistersReadBackWhatSetkeyStored := by
  unfold Obligations.KeyRegistersReadBackWhatSetkeyStored
  intro a b n s t r ht hr hok
  obtain ⟨e, h⟩ | ⟨k, hk, rfl, rfl, hn, h⟩ := exec_setkey_cases a b n
  · cases ht.symm.trans (h s)
    cases hr
    cases hok
  · cases ht.symm.trans (h s)
    cases hr
    obtain ⟨-, -, -, hinv⟩ := hk
    refine ⟨?_, exec_rdkey_register rfl rfl, exec_rdkey_register rfl rfl, ?_, exec_rdkey_register rfl rfl, ?_⟩
    · rw [exec_rdkey_status, statusWord_of_some rfl]
    · exact exec_rdkey_register rfl (congrArg some (ofNat_alphabetSize hn))
    · rwa [toInt_setWidth_ainv, hn]

/-- R24: a command as presented changes the key slot only if it is a SETKEY. -/
theorem decode_setkey_of_key_ne {cmd : Cmd} {s t : State} (h : executeCommand cmd s = .next t)
    (hne : t.key ≠ s.key) : ∃ a b n, decode cmd = .ok (.setkey a b n) := by
  cases hd : decode cmd with
  | error e =>
    rw [executeCommand, hd] at h
    cases h
    exact absurd rfl hne
  | ok i =>
    obtain ⟨-, -, -, hkey⟩ :=
      commandsChangeOnlyTheResponseAndSetkeyTheSlot i s t ((executeCommand_of_decode hd s).symm.trans h)
    have hi : isSetkey i = true := by
      rw [← Bool.not_eq_false]
      exact fun hi => hne (hkey hi)
    obtain ⟨a, b, n, rfl⟩ := isSetkey_eq_true_iff.mp hi
    exact ⟨a, b, n, rfl⟩

/-- R91: acceptance leaves the key slot. -/
@[simp] theorem accept_key (e : Edge) (s : State) : (accept e s).key = s.key := by
  obtain ⟨-, h⟩ | ⟨-, h⟩ := accept_cases e s <;> rw [h]
  rfl

/-- R91: the delivery of a response leaves the key slot. -/
@[simp] theorem offer_key (e : Edge) (r : Response) (s : State) : (offer e r s).key = s.key := by
  obtain ⟨-, h⟩ | ⟨-, h⟩ := offer_cases e r s <;> rw [h]
  rfl

/-- Settles O42: of the five things a step can do, only a reset and a completing command touch the slot. -/
theorem onlySetkeyAndResetChangeTheSlot : Obligations.OnlySetkeyAndResetChangeTheSlot := by
  unfold Obligations.OnlySetkeyAndResetChangeTheSlot
  intro s t ht hne
  obtain ⟨hrst, -⟩ | ⟨-, -, rfl⟩ | ⟨_, -, -, -, rfl⟩ | ⟨cmd, -, hp, hstall, hcmd⟩ | ⟨r, -, -, rfl⟩ :=
    step_cases ht
  · exact .inl hrst
  · exact absurd (accept_key s.edge s.tick) hne
  · exact absurd rfl hne
  · obtain ⟨a, b, n, hd⟩ := decode_setkey_of_key_ne hcmd hne
    exact .inr ⟨cmd, a, b, n, hp, hstall, hd⟩
  · exact absurd (offer_key s.edge r s.tick) hne

/-! ### The invariant (R23, R48) -/

section
variable {s t : State}

/-- The invariant says nothing about the coming edges. -/
theorem stateValid_tick (h : StateValid s) : StateValid s.tick := h

/-- R89: reset leaves no key and no waiting response. -/
theorem stateValid_resetBlock (h : StateValid s) : StateValid (resetBlock s) := by
  obtain ⟨-, -, hdel⟩ := h
  exact ⟨slotValid_none, nofun, hdel⟩

/-- R91: acceptance answers nothing. -/
theorem stateValid_accept (h : StateValid s) (e : Edge) : StateValid (accept e s) := by
  obtain ⟨-, he⟩ | ⟨-, he⟩ := accept_cases e s
  · obtain ⟨hslot, -, hdel⟩ := h
    rw [he]
    exact ⟨hslot, nofun, hdel⟩
  · rwa [he]

/-- A state that a well-formed response is put into, with a valid slot, meets the invariant. -/
theorem stateValid_respond (h : StateValid s) {k : Option Key} (hk : SlotValid k) {r : Response}
    (hr : ResponseValid r) : StateValid ((s.withKey k).withPhase (.responding r)) := by
  obtain ⟨-, -, hdel⟩ := h
  refine ⟨hk, fun r' hr' => ?_, hdel⟩
  cases hr'
  exact hr

/-- R91: a well-formed response is delivered or held. -/
theorem stateValid_offer (h : StateValid s) (e : Edge) {r : Response} (hr : ResponseValid r) :
    StateValid (offer e r s) := by
  obtain ⟨-, he⟩ | ⟨-, he⟩ := offer_cases e r s
  · obtain ⟨hslot, -, hdel⟩ := h
    rw [he]
    refine ⟨hslot, nofun, fun r' hr' => ?_⟩
    obtain hr' | hr' := List.mem_append.mp hr'
    · exact hdel r' hr'
    · rw [List.mem_singleton.mp hr']
      exact hr
  · rwa [he]

/-- R24, R66, R80: the execution of a command as presented keeps the invariant. -/
theorem stateValid_executeCommand (h : StateValid s) {cmd : Cmd} (ht : executeCommand cmd s = .next t) :
    StateValid t := by
  have hslot : SlotValid s.key := h.left
  cases hd : decode cmd with
  | error e =>
    rw [executeCommand, hd] at ht
    cases ht
    exact stateValid_respond h hslot (responseValid_error _)
  | ok i =>
    obtain ⟨k, r, -, hk, hr, hexec⟩ := exec_of_slot i s.key
    cases ht.symm.trans ((executeCommand_of_decode hd s).trans (hexec s rfl))
    exact stateValid_respond h (hk hslot) hr

end

/-- Settles O43: each of the five things a step can do keeps the invariant. -/
theorem everyStepKeepsTheStateValid : Obligations.EveryStepKeepsTheStateValid := by
  unfold Obligations.EveryStepKeepsTheStateValid
  intro s t hs ht
  have htick : StateValid s.tick := stateValid_tick hs
  obtain ⟨-, rfl⟩ | ⟨-, -, rfl⟩ | ⟨_, -, -, -, rfl⟩ | ⟨cmd, -, -, -, hcmd⟩ | ⟨r, -, hp, rfl⟩ :=
    step_cases ht
  · exact stateValid_resetBlock htick
  · exact stateValid_accept htick s.edge
  · exact htick
  · exact stateValid_executeCommand htick hcmd
  · obtain ⟨-, hresp, -⟩ := hs
    exact stateValid_offer htick s.edge (hresp r hp)

/-- Settles O44: nothing is in the slot, on the port or delivered. -/
theorem theResetStateIsValid : Obligations.TheResetStateIsValid := by
  unfold Obligations.TheResetStateIsValid
  exact ⟨rfl, rfl, rfl, slotValid_none, nofun, nofun⟩

/-! ### The round trip of a text (R73 (f)) -/

/-- R62 (b): T26 holds the letter of index i at place i. -/
theorem enc_t26 : ∀ i < 26, enc .latin26 (t26.getD i 0#8) = some i := by decide

/-- R62 (b): T27 holds the letter of index i at place i. -/
theorem enc_t27 : ∀ i < 27, enc .latin27 (t27.getD i 0#8) = some i := by decide

/-- R62 (b): the letter of an index of the alphabet has that index. -/
theorem enc_dec {v : Variant} {i : Nat} (hi : i < alphabetSize v) : enc v (dec v i) = some i := by
  rw [dec_of_lt hi]
  cases v with
  | latin26 => exact enc_t26 i hi
  | latin27 => exact enc_t27 i hi

/-- R73 (f): an encrypted letter decodes to its upper case. -/
theorem decodeChar_encryptChar_letter {k : Key} (hk : KeyValid k) {c : Byte} {m : Nat} (hc : enc k.n c = some m) :
    decodeChar (loadKey k) (encryptChar k c) = some (up c) := by
  obtain ⟨hm, hup⟩ := enc_some_spec hc
  have henc : enc (loadKey k).n (encryptChar k c) = some (encryptIndex k m) := by
    rw [encryptChar, hc]
    exact enc_dec (encryptIndex_lt k m)
  rw [decodeChar_of_enc henc, decodeIndex_encryptIndex hk hm, ← hup]
  exact congrArg some (dec_of_lt hm)

/-- R73 (f): a non-letter is left in place by the encryption and dropped by the decoding. -/
theorem decodeChar_encryptChar_nonletter {k : Key} {c : Byte} (hc : enc k.n c = none) :
    decodeChar (loadKey k) (encryptChar k c) = none := by
  rw [encryptChar, hc]
  exact (decodeChar_eq_none_iff _ _).mpr hc

/-- Settles O30: character by character, by the two lemmas on an encrypted letter and on a non-letter. -/
theorem decodingAnEncryptedTextGivesThePlaintext : Obligations.DecodingAnEncryptedTextGivesThePlaintext := by
  unfold Obligations.DecodingAnEncryptedTextGivesThePlaintext
  intro k plain hk
  induction plain with
  | nil => rfl
  | cons c plain ih =>
    rw [decodeText] at ih ⊢
    cases hc : enc k.n c with
    | none =>
      have hdrop := decodeChar_encryptChar_nonletter hc
      simp [hdrop, hc, ih]
    | some m =>
      have hkeep := decodeChar_encryptChar_letter hk hc
      simp [hkeep, hc, ih]

end Sys2Proof.Machine
end

section
/-! PROOFS of the family 20_memory.md: DEC at every index (R61, R64) and the codec laws (R62). -/

namespace Sys2Proof.Machine

/-! ### DEC at every index (R61, R64) -/

/-- R62 (c): an index is reduced modulo the size of the alphabet before it is looked up. -/
theorem dec_add_mul (v : Variant) (i q : Int) : dec v (i + q * alphabetSize v) = dec v i := by
  have hred : emod (i + q * alphabetSize v) (alphabetSize v) = emod i (alphabetSize v) :=
    Int.add_mul_emod_self_right i q (alphabetSize v)
  rw [dec, dec, hred]

/-- R64: DEC answers the letter of its signed operand and changes nothing else. -/
theorem exec_dec_eq (v : Variant) (x : Word) (s : State) :
    exec (.dec v x) s = .next (s.withPhase (.responding ⟨.ok, 1#3, (dec v x.toInt).setWidth 32⟩)) := rfl

/-- R61, R64: DEC answers the table entry at the residue of its operand modulo the size of the alphabet. -/
theorem exec_dec_of_residue {v : Variant} {x : Word} {j : Nat} {q : Int} (hj : j < alphabetSize v)
    (hx : x.toInt = j + q * alphabetSize v) (s : State) :
    exec (.dec v x) s =
      .next (s.withPhase (.responding ⟨.ok, 1#3, ((table v).getD j 0#8).setWidth 32⟩)) := by
  rw [exec_dec_eq, hx, dec_add_mul, dec_of_lt hj]

/-- R31: T26[i] in a result word. -/
theorem setWidth_t26 {i : Nat} (hi : i < 26) : (t26.getD i 0#8).setWidth 32 = BitVec.ofNat 32 (0x41 + i) := by
  rw [t26_getD i hi]
  exact BitVec.setWidth_ofNat_of_le_of_lt (by omega) (by omega)

/-- R32: T27[i] in a result word. -/
theorem setWidth_t27 {i : Nat} (hi : i < 27) : (t27.getD i 0#8).setWidth 32 =
    if i ≤ 13 then BitVec.ofNat 32 (0x41 + i) else if i = 14 then 0xD1#32 else BitVec.ofNat 32 (0x40 + i) := by
  rw [t27_getD i hi]
  split
  · exact BitVec.setWidth_ofNat_of_le_of_lt (by omega) (by omega)
  · split
    · rfl
    · exact BitVec.setWidth_ofNat_of_le_of_lt (by omega) (by omega)

/-- Settles O17: the table entry at the residue (`exec_dec_of_residue`), spelt out for each table. -/
theorem decAnswersTheLetterModuloTheSize : Obligations.DecAnswersTheLetterModuloTheSize := by
  unfold Obligations.DecAnswersTheLetterModuloTheSize
  intro x j q s
  constructor
  · intro hj hx
    rw [← setWidth_t26 hj]
    exact exec_dec_of_residue (v := .latin26) hj hx s
  · intro hj hx
    rw [← setWidth_t27 hj]
    exact exec_dec_of_residue (v := .latin27) hj hx s

/-! ### The codec laws (R62) -/

/-- R62 (a): the index of a letter lies in the alphabet and decodes to the upper case of the letter. -/
theorem dec_of_enc {v : Variant} {c : Byte} {i : Nat} (h : enc v c = some i) :
    i < alphabetSize v ∧ dec v i = up c := by
  obtain ⟨hi, hup⟩ := enc_some_spec h
  exact ⟨hi, (dec_of_lt hi).trans hup⟩

/-- R62 (e): a command that reads no key register and is no SETKEY answers the same in all states and keeps the key. -/
theorem answer_const_and_key_kept {i : Instr} (hd : isDecode i = false) (hr : ∀ sel, i ≠ .rdkey sel)
    (hk : isSetkey i = false) (s t : State) :
    answerOf i s = answerOf i t ∧ ∀ u, exec i s = .next u → u.key = s.key := by
  obtain ⟨-, hanswer⟩ := answersDependOnTheKeySlotAlone i s t
  refine ⟨hanswer ⟨hd, hr⟩, fun u hu => ?_⟩
  obtain ⟨-, -, -, hkey⟩ := commandsChangeOnlyTheResponseAndSetkeyTheSlot i s u hu
  exact hkey hk

/-- R62 (f): T27 holds the letters of T26 in their order, one place higher from the place of Ñ on. -/
theorem t26_getD_eq_t27_getD :
    ∀ i < 26, t26.getD i 0#8 = t27.getD (if i ≤ 13 then i else i + 1) 0#8 := by decide

/-- R62 (f): a letter of the 26 has in the 27 the index of its upper case in T27. -/
theorem enc_latin27_of_enc_latin26 {c : Byte} {i : Nat} (h : enc .latin26 c = some i) :
    enc .latin27 c = some (if i ≤ 13 then i else i + 1) := by
  obtain ⟨hi, hup⟩ : i < 26 ∧ t26.getD i 0#8 = up c := enc_some_spec h
  have hplace : (if i ≤ 13 then i else i + 1) < 27 := by split <;> omega
  calc enc .latin27 c = enc .latin27 (up c) := (enc_up _ c).symm
    _ = enc .latin27 (t26.getD i 0#8) := congrArg (enc .latin27) hup.symm
    _ = enc .latin27 (t27.getD (if i ≤ 13 then i else i + 1) 0#8) := by rw [t26_getD_eq_t27_getD i hi]
    _ = some (if i ≤ 13 then i else i + 1) := enc_t27 _ hplace

/-- Settles O18: one lemma for each of the laws (a) to (f). -/
theorem theCodecLawsHold : Obligations.TheCodecLawsHold := by
  unfold Obligations.TheCodecLawsHold
  refine ⟨fun _ _ _ => dec_of_enc, fun _ _ => enc_dec, dec_add_mul, fun v c => (enc_up v c).symm,
    fun v c x s t => ?_, fun _ _ => enc_latin27_of_enc_latin26⟩
  obtain ⟨hencAnswer, hencKey⟩ := answer_const_and_key_kept (i := .enc v c) rfl nofun rfl s t
  obtain ⟨hdecAnswer, hdecKey⟩ := answer_const_and_key_kept (i := .dec v x) rfl nofun rfl s t
  exact ⟨hencAnswer, hdecAnswer, hencKey, hdecKey⟩

end Sys2Proof.Machine
end

section
/-! PROOFS of the family 30_encoding.md: the decoder and the encoder (R43 to R47, R49, R53), the response bundle and its
item counts (R48), the lanes of DECV (R46, R71), and the expansion of DECS (R54). -/

namespace Sys2Proof.Machine

/-! ### The opcode map (R47) -/

/-- Under a mask that is all ones on a slice, the slice is that of the masked vector. -/
theorem slice_of_masked {w : Nat} {x m y : BitVec w} (h : x &&& m = y) (k n : Nat)
    (hm : m.extractLsb' k n = BitVec.allOnes n) : x.extractLsb' k n = y.extractLsb' k n := by
  rw [← h, BitVec.extractLsb'_and, hm, BitVec.and_allOnes]

/-- R47: every row's mask keeps the whole opcode byte. -/
theorem opcField_of_row {inst : InstWord} {o : Opcode} (h : inst &&& rowMask o = rowMatch o) :
    opcField inst = opcField (rowMatch o) :=
  slice_of_masked h 0 8 (by cases o <;> decide)

/-- R47: the opcode byte of a row's match column names the row. -/
theorem opcodeOf_rowMatch (o : Opcode) : opcodeOf (opcField (rowMatch o)) = .ok o := by
  cases o <;> rfl

/-- R47: an instruction word is accepted as the named row exactly when it meets mask and match and, for RDKEY, names a
register. -/
theorem decodeInst_eq_ok_iff {inst : InstWord} {o : Opcode} :
    decodeInst inst = .ok o ↔
      inst &&& rowMask o = rowMatch o ∧ (o = .rdkey → selField inst ≤ 4#3) := by
  constructor
  · intro h
    refine ⟨?_, fun ho => selField_le_of_decodeInst_rdkey (ho ▸ h)⟩
    unfold decodeInst at h
    split at h
    · cases h
    · split at h
      · cases h
      · next hrow =>
        split at h
        · cases h
        · cases h
          exact not_ne_iff.mp hrow
  · rintro ⟨hrow, hsel⟩
    have hlegal : ¬ (o = .rdkey ∧ 4#3 < selField inst) := fun ⟨ho, hlt⟩ => BitVec.not_lt.mpr (hsel ho) hlt
    have hopc : opcodeOf (opcField inst) = .ok o := (opcField_of_row hrow) ▸ opcodeOf_rowMatch o
    simp only [decodeInst, hopc, hrow, ne_eq, not_true_eq_false, if_false, if_neg hlegal]

/-- R46: the operands are those of the row they are read for. -/
@[simp] theorem opcode_assembleOperands (cmd : Cmd) (o : Opcode) : (assembleOperands cmd o).opcode = o := by
  cases o <;> rfl

/-- R46, R47: a command decodes when its instruction word names a row, to the operands that row reads. -/
theorem decode_eq_ok_iff {cmd : Cmd} {i : Instr} :
    decode cmd = .ok i ↔ decodeInst (instField cmd) = .ok i.opcode ∧ assembleOperands cmd i.opcode = i := by
  cases h : decodeInst (instField cmd) with
  | error e => simp only [decode, h, reduceCtorEq, false_and]
  | ok o =>
    simp only [decode, h, Except.ok.injEq]
    constructor
    · rintro rfl
      simp only [opcode_assembleOperands, and_self]
    · rintro ⟨rfl, hi⟩
      exact hi

/-- R47: a command decodes to an instruction of a row exactly when its instruction word names the row. -/
theorem exists_decode_opcode_iff {cmd : Cmd} {o : Opcode} :
    (∃ i, decode cmd = .ok i ∧ i.opcode = o) ↔ decodeInst (instField cmd) = .ok o := by
  constructor
  · rintro ⟨i, hd, rfl⟩
    exact (decode_eq_ok_iff.mp hd).left
  · intro h
    refine ⟨assembleOperands cmd o, decode_eq_ok_iff.mpr ?_, opcode_assembleOperands cmd o⟩
    rw [opcode_assembleOperands]
    exact ⟨h, rfl⟩

/-- Settles O7: the columns written out are those of the decoder, which accepts by them (`decodeInst_eq_ok_iff`). -/
theorem theOpcodeMapNamesTheCommand : Obligations.TheOpcodeMapNamesTheCommand := by
  unfold Obligations.TheOpcodeMapNamesTheCommand
  intro row hrow cmd
  have hcolumns : row.2.1 = rowMask row.1 ∧ row.2.2 = rowMatch row.1 := by
    revert row
    decide
  obtain ⟨hmask, hmatch⟩ := hcolumns
  rw [hmask, hmatch, exists_decode_opcode_iff, decodeInst_eq_ok_iff]

/-! ### The instruction word (R44, R45) -/

/-- R43: the instruction word of an encoded command. -/
@[simp] theorem instField_encode (i : Instr) : instField (encode i) = encodeInst i := by
  cases i <;> exact instField_bundle ..

/-- R47: the instruction word of a well-formed instruction meets the mask and match of its row. -/
theorem encodeInst_row {i : Instr} (h : i.wf = true) :
    encodeInst i &&& rowMask i.opcode = rowMatch i.opcode := by
  rw [← instField_encode]
  cases i with
  | modinv a n => exact Laws.EncodedWord.modinv a n h
  | enc v c => exact Laws.EncodedWord.enc v c h
  | dec v x => exact Laws.EncodedWord.dec v x h
  | setkey a b n => exact Laws.EncodedWord.setkey a b n h
  | decc c => exact Laws.EncodedWord.decc c h
  | decv lm c0 c1 c2 c3 => exact Laws.EncodedWord.decv lm c0 c1 c2 c3 h
  | rdkey sel => exact Laws.EncodedWord.rdkey sel h

/-- R44: the variant select that ENC and DEC carry in bit 8, above their opcode byte. -/
theorem variantOfBit_sField (v : Variant) (opc : BitVec 8) :
    variantOfBit (sField (0#7 ++ variantBit v ++ opc)) = v := by
  have hbit : sField (0#7 ++ variantBit v ++ opc) = (0#7 ++ variantBit v).getLsbD 0 := by
    rw [sField, BitVec.getLsbD_append]
    rfl
  rw [hbit]
  cases v <;> rfl

/-- R44: the variant select bit as a field of one bit. -/
theorem variantBit_variantOfBit_sField (inst : InstWord) :
    variantBit (variantOfBit (sField inst)) = inst.extractLsb' 8 1 := by
  have hbit : inst.extractLsb' 8 1 = BitVec.ofBool (sField inst) := by
    apply BitVec.eq_of_getLsbD_eq
    intro j hj
    obtain rfl : j = 0 := by omega
    simp [sField]
  rw [hbit]
  cases sField inst <;> rfl

/-- R44: the lane mask that DECV carries. -/
theorem lmField_append (lm : BitVec 4) (low : BitVec 12) : lmField (lm ++ low) = lm :=
  (slice_append_high lm low 0 4).trans (slice_all lm)

/-- R44: the register number that RDKEY carries. -/
theorem selField_encodeInst_rdkey : ∀ sel : BitVec 3, selField (encodeInst (.rdkey sel)) = sel := by
  decide

/-- R44: the instruction word cut around the variant select bit. -/
theorem inst_split_at_s (inst : InstWord) :
    inst = inst.extractLsb' 9 7 ++ inst.extractLsb' 8 1 ++ opcField inst := by
  have hhigh := split_at (a := 7) (b := 1) (inst.extractLsb' 8 8)
  rw [slice_slice _ _ _ _ _ (by omega), slice_slice _ _ _ _ _ (by omega)] at hhigh
  exact hhigh ▸ split_at (a := 8) (b := 8) inst

/-- R47: what the mask of ENC and DEC leaves free is the variant select bit. -/
theorem inst_of_variant_row {inst : InstWord} {opc : BitVec 8}
    (h : inst &&& 0xFEFF#16 = 0#7 ++ 0#1 ++ opc) :
    0#7 ++ variantBit (variantOfBit (sField inst)) ++ opc = inst := by
  have hhigh : inst.extractLsb' 9 7 = 0#7 :=
    (slice_of_masked h 9 7 (by decide)).trans <|
      (slice_append_high (0#7 ++ 0#1) opc 1 7).trans ((slice_append_high 0#7 0#1 0 7).trans (slice_all _))
  have hopc : opcField inst = opc :=
    (slice_of_masked h 0 8 (by decide)).trans ((slice_append_low _ opc 0 8 (by omega)).trans (slice_all opc))
  rw [variantBit_variantOfBit_sField, ← hhigh, ← hopc]
  exact (inst_split_at_s inst).symm

/-- R45, R47: an instruction word that meets a row's mask and match is the word of the instruction read for that row. -/
theorem encodeInst_assembleOperands {cmd : Cmd} {o : Opcode} (h : instField cmd &&& rowMask o = rowMatch o) :
    encodeInst (assembleOperands cmd o) = instField cmd := by
  cases o with
  | modinv | setkey | decc => exact h.symm.trans BitVec.and_allOnes
  | enc => exact inst_of_variant_row h
  | dec => exact inst_of_variant_row h
  | decv =>
    have hlow : (instField cmd).extractLsb' 0 12 = 0x006#12 := slice_of_masked h 0 12 (by decide)
    exact (hlow ▸ split_at (a := 4) (b := 12) (instField cmd)).symm
  | rdkey =>
    have hlm : lmField (instField cmd) = 0#4 := slice_of_masked h 12 4 (by decide)
    have hs : (instField cmd).extractLsb' 8 1 = 0#1 := slice_of_masked h 8 1 (by decide)
    have hopc : opcField (instField cmd) = 0x07#8 := opcField_of_row h
    have hfields := inst_fields (instField cmd)
    rw [hlm, hs, hopc] at hfields
    exact hfields.symm

/-- R45, R47: the instruction word of a command that decodes is that of the decoded instruction. -/
theorem encodeInst_of_decode {cmd : Cmd} {i : Instr} (h : decode cmd = .ok i) : encodeInst i = instField cmd := by
  obtain ⟨hinst, hi⟩ := decode_eq_ok_iff.mp h
  obtain ⟨hrow, -⟩ := decodeInst_eq_ok_iff.mp hinst
  exact hi ▸ encodeInst_assembleOperands hrow

/-- Settles O9 by `decode_wf` and `encodeInst_of_decode`. -/
theorem encodeOfDecodeKeepsTheInstWord : Obligations.EncodeOfDecodeKeepsTheInstWord := by
  unfold Obligations.EncodeOfDecodeKeepsTheInstWord
  intro cmd i h
  exact ⟨decode_wf h, (instField_encode i).trans (encodeInst_of_decode h)⟩

/-! ### The legal instruction words (R49) -/

/-- R49: the instruction word of a well-formed instruction is legal. -/
theorem encodeInst_mem_legalInst {i : Instr} (h : i.wf = true) : encodeInst i ∈ legalInst := by
  cases i with
  | modinv | setkey | decc =>
    rw [encodeInst]
    decide
  | enc v c =>
    have hword : ∀ b : BitVec 1, 0#7 ++ b ++ 0x02#8 ∈ legalInst := by decide
    exact hword (variantBit v)
  | dec v x =>
    have hword : ∀ b : BitVec 1, 0#7 ++ b ++ 0x03#8 ∈ legalInst := by decide
    exact hword (variantBit v)
  | decv lm c0 c1 c2 c3 =>
    have hword : ∀ m : BitVec 4, m ++ 0x006#12 ∈ legalInst := by decide
    exact hword lm
  | rdkey sel =>
    have hword : ∀ x : BitVec 3, x ≤ 4#3 → 0#4 ++ x ++ 0#1 ++ 0x07#8 ∈ legalInst := by decide
    exact hword sel (of_decide_eq_true h)

/-- R49: the decoder accepts every legal instruction word. -/
theorem legalInst_all_isOk : (legalInst.all fun inst => (decodeInst inst).isOk) = true := by decide

/-- R49: a command with a legal instruction word decodes. -/
theorem exists_decode_of_mem_legalInst {cmd : Cmd} (h : instField cmd ∈ legalInst) :
    ∃ i, decode cmd = .ok i := by
  have hok := List.all_eq_true.mp legalInst_all_isOk _ h
  cases hinst : decodeInst (instField cmd) with
  | error e =>
    rw [hinst] at hok
    cases hok
  | ok o => exact ⟨assembleOperands cmd o, by rw [decode, hinst]⟩

/-- Settles O6: a decoded command carries the legal word of its instruction, and the 28 words are few enough to try. -/
theorem exactlyTheLegalInstValuesDecode : Obligations.ExactlyTheLegalInstValuesDecode := by
  unfold Obligations.ExactlyTheLegalInstValuesDecode
  refine ⟨rfl, by decide, fun cmd => ⟨?_, exists_decode_of_mem_legalInst⟩⟩
  rintro ⟨i, hd⟩
  rw [← encodeInst_of_decode hd]
  exact encodeInst_mem_legalInst (decode_wf hd)

/-! ### What each instruction word decodes to (R45, R46) -/

/-- R47: the instruction word of a well-formed instruction names its row. -/
theorem decodeInst_encodeInst {i : Instr} (h : i.wf = true) : decodeInst (encodeInst i) = .ok i.opcode := by
  refine decodeInst_eq_ok_iff.mpr ⟨encodeInst_row h, fun ho => ?_⟩
  cases i with
  | rdkey sel =>
    rw [selField_encodeInst_rdkey]
    exact of_decide_eq_true h
  | modinv | enc | dec | setkey | decc | decv => cases ho

section
variable (opa opb opn : Word)

/-- R46: with the instruction word of a well-formed instruction a command decodes to the operands of its row. -/
theorem decode_bundle_encodeInst {i : Instr} (h : i.wf = true) :
    decode (bundle (encodeInst i) opa opb opn) =
      .ok (assembleOperands (bundle (encodeInst i) opa opb opn) i.opcode) := by
  rw [decode, instField_bundle, decodeInst_encodeInst h]

/-- R46: MODINV reads `opa` and `opn`. -/
theorem decode_modinv : decode (bundle 0x0001#16 opa opb opn) = .ok (.modinv opa opn) := by
  have h := decode_bundle_encodeInst opa opb opn (i := .modinv opa opn) rfl
  simpa only [Instr.opcode, assembleOperands, encodeInst, opaField_bundle, opnField_bundle] using h

/-- R46: ENC reads the variant select and lane 0 of `opa`. -/
theorem decode_enc (v : Variant) :
    decode (bundle (0#7 ++ variantBit v ++ 0x02#8) opa opb opn) = .ok (.enc v (lane opa 0)) := by
  have h := decode_bundle_encodeInst opa opb opn (i := .enc v (lane opa 0)) rfl
  simpa only [Instr.opcode, assembleOperands, encodeInst, instField_bundle, opaField_bundle,
    variantOfBit_sField] using h

/-- R46: DEC reads the variant select and `opa`. -/
theorem decode_dec (v : Variant) :
    decode (bundle (0#7 ++ variantBit v ++ 0x03#8) opa opb opn) = .ok (.dec v opa) := by
  have h := decode_bundle_encodeInst opa opb opn (i := .dec v opa) rfl
  simpa only [Instr.opcode, assembleOperands, encodeInst, instField_bundle, opaField_bundle,
    variantOfBit_sField] using h

/-- R46: SETKEY reads `opa`, `opb` and `opn`. -/
theorem decode_setkey : decode (bundle 0x0004#16 opa opb opn) = .ok (.setkey opa opb opn) := by
  have h := decode_bundle_encodeInst opa opb opn (i := .setkey opa opb opn) rfl
  simpa only [Instr.opcode, assembleOperands, encodeInst, opaField_bundle, opbField_bundle, opnField_bundle] using h

/-- R46: DECC reads lane 0 of `opa`. -/
theorem decode_decc : decode (bundle 0x0005#16 opa opb opn) = .ok (.decc (lane opa 0)) := by
  have h := decode_bundle_encodeInst opa opb opn (i := .decc (lane opa 0)) rfl
  simpa only [Instr.opcode, assembleOperands, encodeInst, opaField_bundle] using h

/-- R46: DECV reads the lane mask and the four lanes of `opa`. -/
theorem decode_decv (lm : BitVec 4) : decode (bundle (lm ++ 0x006#12) opa opb opn) =
    .ok (.decv lm (lane opa 0) (lane opa 1) (lane opa 2) (lane opa 3)) := by
  have h := decode_bundle_encodeInst opa opb opn
    (i := .decv lm (lane opa 0) (lane opa 1) (lane opa 2) (lane opa 3)) rfl
  simpa only [Instr.opcode, assembleOperands, encodeInst, instField_bundle, opaField_bundle,
    lmField_append] using h

/-- R46: RDKEY reads the register number. -/
theorem decode_rdkey {sel : BitVec 3} (hsel : sel ≤ 4#3) :
    decode (bundle (encodeInst (.rdkey sel)) opa opb opn) = .ok (.rdkey sel) := by
  have h := decode_bundle_encodeInst opa opb opn (i := .rdkey sel) (decide_eq_true hsel)
  simpa only [Instr.opcode, assembleOperands, instField_bundle, selField_encodeInst_rdkey] using h

end

/-- R44, R45: the instruction word of RDKEY as a number. -/
theorem encodeInst_rdkey_eq_ofNat :
    ∀ sel : BitVec 3, encodeInst (.rdkey sel) = BitVec.ofNat 16 (0x0007 + 0x0200 * sel.toNat) := by
  decide

/-- R44, R45: the instruction word of DECV as a number. -/
theorem append_opcode_decv_eq_ofNat :
    ∀ lm : BitVec 4, lm ++ 0x006#12 = BitVec.ofNat 16 (0x0006 + 0x1000 * lm.toNat) := by
  decide

/-- Settles O5: one lemma for each row. -/
theorem operandsAreReadFromTheirFields : Obligations.OperandsAreReadFromTheirFields := by
  unfold Obligations.OperandsAreReadFromTheirFields
  intro opa opb opn
  refine ⟨decode_modinv .., decode_enc opa opb opn .latin26, decode_enc opa opb opn .latin27,
    decode_dec opa opb opn .latin26, decode_dec opa opb opn .latin27, decode_setkey .., decode_decc ..,
    decode_decv opa opb opn, fun sel hsel => ?_⟩
  rw [← encodeInst_rdkey_eq_ofNat]
  exact decode_rdkey opa opb opn hsel

/-- Settles O4: the words written out are those of the rows, read by the same lemmas. -/
theorem theSpecsWordsDecode : Obligations.TheSpecsWordsDecode := by
  unfold Obligations.TheSpecsWordsDecode
  exact ⟨decode_modinv .., decode_enc _ _ _ .latin27, decode_dec _ _ _ .latin26, decode_setkey ..,
    decode_decc .., decode_decv _ _ _ 0b1010#4, decode_rdkey _ _ _ (sel := 4#3) (by decide)⟩

/-- R46, R53: a character written into a word with 0 above it is lane 0. -/
theorem lane_setWidth (c : Byte) : lane (c.setWidth 32) 0 = c := by
  apply BitVec.eq_of_getLsbD_eq
  intro j hj
  have hj32 : j < 32 := by omega
  simp [lane, hj, hj32]

/-- Settles O8: each row reads back the operand fields that the encoder has written for it. -/
theorem decodeOfEncodeIsTheCommand : Obligations.DecodeOfEncodeIsTheCommand := by
  unfold Obligations.DecodeOfEncodeIsTheCommand
  intro i hwf
  cases i with
  | modinv a n => exact decode_modinv a 0 n
  | enc v c => exact (decode_enc (c.setWidth 32) 0 0 v).trans (by rw [lane_setWidth])
  | dec v x => exact decode_dec x 0 0 v
  | setkey a b n => exact decode_setkey a b n
  | decc c => exact (decode_decc (c.setWidth 32) 0 0).trans (by rw [lane_setWidth])
  | decv lm c0 c1 c2 c3 =>
    obtain ⟨h0, h1, h2, h3⟩ := lane_join c0 c1 c2 c3
    exact (decode_decv (c3 ++ c2 ++ c1 ++ c0) 0 0 lm).trans (by rw [h0, h1, h2, h3])
  | rdkey sel => exact decode_rdkey 0 0 0 (of_decide_eq_true hwf)

/-- Settles O11: the assembler's lines are the encoder's columns; the mask of DECV is the high digit of its word. -/
theorem assemblerLinesStandForTheirFields : Obligations.AssemblerLinesStandForTheirFields := by
  unfold Obligations.AssemblerLinesStandForTheirFields
  intro a b n i c c0 c1 c2 c3 lm
  rw [← append_opcode_decv_eq_ofNat]
  exact ⟨rfl, rfl, rfl, rfl, rfl, rfl, rfl, rfl, rfl, rfl, rfl, rfl, rfl⟩

/-! ### The response bundle (R48, R75) -/

/-- Settles O10: the fields of the concatenation are the three parts, and the status code is that of R75. -/
theorem theResponseBundleHoldsItsFields : Obligations.TheResponseBundleHoldsItsFields := by
  unfold Obligations.TheResponseBundleHoldsItsFields
  intro r
  have hres : (respBits r).extractLsb' 0 32 = r.res :=
    (slice_append_low (statusCode r.status ++ r.cnt) r.res 0 32 (by omega)).trans (slice_all _)
  have hcnt : (respBits r).extractLsb' 32 3 = r.cnt :=
    (slice_append_high (statusCode r.status ++ r.cnt) r.res 0 3).trans
      ((slice_append_low (statusCode r.status) r.cnt 0 3 (by omega)).trans (slice_all _))
  have hstatus : (respBits r).extractLsb' 35 4 = statusCode r.status :=
    (slice_append_high (statusCode r.status ++ r.cnt) r.res 3 4).trans
      ((slice_append_high (statusCode r.status) r.cnt 0 4).trans (slice_all _))
  refine ⟨hres, hcnt, ?_⟩
  rw [hstatus]
  cases r.status with
  | ok => rfl
  | err e => cases e <;> rfl

/-! ### The lanes of DECV (R46, R71) -/

/-- R71: the selected characters depend on the selected lanes alone. -/
theorem selectLanes_congr {lm : BitVec 4} {c0 c1 c2 c3 d0 d1 d2 d3 : Byte}
    (h0 : lm.getLsbD 0 = true → c0 = d0) (h1 : lm.getLsbD 1 = true → c1 = d1)
    (h2 : lm.getLsbD 2 = true → c2 = d2) (h3 : lm.getLsbD 3 = true → c3 = d3) :
    selectLanes lm c0 c1 c2 c3 = selectLanes lm d0 d1 d2 d3 := by
  have hlane : ∀ {b : Bool} {c d : Byte}, (b = true → c = d) →
      (if b then [c] else []) = if b then [d] else [] :=
    fun h => if_ctx_congr Iff.rfl (fun hb => congrArg (fun x => [x]) (h hb)) fun _ => rfl
  rw [selectLanes, selectLanes, hlane h0, hlane h1, hlane h2, hlane h3]

/-- Settles O28: DECV looks at its lanes through `selectLanes` alone. -/
theorem unselectedLanesHaveNoEffect : Obligations.UnselectedLanesHaveNoEffect := by
  unfold Obligations.UnselectedLanesHaveNoEffect
  intro lm c0 c1 c2 c3 d0 d1 d2 d3 s h0 h1 h2 h3
  simp only [exec, execDecv, selectLanes_congr h0 h1 h2 h3]

/-! ### The expansion of DECS (R54) -/

/-- R54: the expansion presents the text once and in order. -/
theorem flatMap_presented_expandDecs (text : List Byte) : (expandDecs text).flatMap presented = text := by
  induction text using expandDecs.induct with
  | case1 c0 c1 c2 c3 rest ih => simp [expandDecs, presented, selectLanes, ih]
  | case2 | case3 | case4 | case5 => simp [expandDecs, presented, selectLanes]

/-- R54: one command for every four characters begun. -/
theorem length_expandDecs (text : List Byte) : (expandDecs text).length = (text.length + 3) / 4 := by
  induction text using expandDecs.induct with
  | case1 c0 c1 c2 c3 rest ih =>
    simp only [expandDecs, List.length_cons, ih]
    omega
  | case2 | case3 | case4 | case5 => simp only [expandDecs, List.length_cons, List.length_nil]

/-- R54: the command at place j has the characters 4j to 4j + 3, 0 past the end of the text, and marks the lanes that
hold one. -/
theorem getElem?_expandDecs {text : List Byte} {j : Nat} {i : Instr} (h : (expandDecs text)[j]? = some i) :
    ∃ lm, i = .decv lm (text.getD (4 * j) 0#8) (text.getD (4 * j + 1) 0#8) (text.getD (4 * j + 2) 0#8)
        (text.getD (4 * j + 3) 0#8) ∧
      lm.toNat = 2 ^ min 4 (text.length - 4 * j) - 1 := by
  induction text using expandDecs.induct generalizing j with
  | case1 c0 c1 c2 c3 rest ih =>
    cases j with
    | zero =>
      cases h
      exact ⟨_, rfl, by simp⟩
    | succ j =>
      obtain ⟨lm, hi, hlm⟩ := ih h
      exact ⟨lm, hi, hlm.trans (by simp [Nat.mul_succ])⟩
  | case2 | case3 | case4 =>
    cases j with
    | zero =>
      cases h
      exact ⟨_, rfl, rfl⟩
    | succ j => cases h
  | case5 => cases h

/-- Settles O32: one lemma for each clause, by the recursion of the expansion. -/
theorem decsPresentsTheTextInOrder : Obligations.DecsPresentsTheTextInOrder := by
  unfold Obligations.DecsPresentsTheTextInOrder
  exact fun text => ⟨flatMap_presented_expandDecs text, length_expandDecs text, fun _ _ => getElem?_expandDecs⟩

/-! ### The item counts (R48) -/

/-- R48, R75: whatever a command answers is a well-formed response. -/
theorem responseValid_of_answerOf {i : Instr} {s : State} {r : Response} (h : answerOf i s = some r) :
    ResponseValid r := by
  obtain ⟨k, r', -, -, hr', hexec⟩ := exec_of_slot i s.key
  cases h.symm.trans (answerOf_of_exec (hexec s rfl))
  exact hr'

/-- R67: a character decodes exactly when it is a letter of the key's alphabet. -/
theorem isSome_decodeChar (k : AffineKey) (c : Byte) : (decodeChar k c).isSome = (enc k.n c).isSome := by
  cases h : enc k.n c with
  | none =>
    rw [(decodeChar_eq_none_iff k c).mpr h]
    rfl
  | some ci =>
    rw [decodeChar_of_enc h]
    rfl

/-- R73 (a): a text decodes to as many characters as it has letters. -/
theorem length_decodeText (k : AffineKey) (text : List Byte) :
    (decodeText k text).length = text.countP fun c => (enc k.n c).isSome := by
  simp only [decodeText, List.length_filterMap_eq_countP, isSome_decodeChar]

/-- R58: MODINV raises an error or answers an integer; which of the two does not depend on the state. -/
theorem exec_modinv_cases (a n : Word) :
    (∃ e, ∀ s, exec (.modinv a n) s = .next (s.withPhase (.responding ⟨.err e, 0#3, 0#32⟩))) ∨
    (∃ x, ∀ s, exec (.modinv a n) s = .next (s.withPhase (.responding ⟨.ok, 1#3, BitVec.ofInt 32 x⟩))) := by
  cases h : modinv a.toInt n.toInt with
  | error e => exact .inl ⟨e, fun s => by simp only [exec, execModinv, h, raise_eq]⟩
  | ok x => exact .inr ⟨x, fun s => by simp only [exec, execModinv, h, respond_eq]⟩

section
variable {s : State} {r : Response}

/-- R68: without a key DECC raises NoKey. -/
theorem exec_decc_noKey (hs : s.key = none) (c : Byte) :
    exec (.decc c) s = .next (s.withPhase (.responding ⟨.err .noKey, 0#3, 0#32⟩)) := by
  simp only [exec, execDecc, hs, raise_eq]

/-- R71: without a key DECV raises NoKey. -/
theorem exec_decv_noKey (hs : s.key = none) (lm : BitVec 4) (c0 c1 c2 c3 : Byte) :
    exec (.decv lm c0 c1 c2 c3) s = .next (s.withPhase (.responding ⟨.err .noKey, 0#3, 0#32⟩)) := by
  simp only [exec, execDecv, hs, raise_eq]

/-- R71: with a key DECV answers the decoded text of the selected lanes, packed, and its length. -/
theorem exec_decv_keyed {k : Key} (hs : s.key = some k) {lm : BitVec 4} {c0 c1 c2 c3 : Byte} {out : List Byte}
    (hout : decodeText (loadKey k) (selectLanes lm c0 c1 c2 c3) = out) :
    exec (.decv lm c0 c1 c2 c3) s =
      .next (s.withPhase (.responding ⟨.ok, BitVec.ofNat 3 out.length, packLanes out⟩)) := by
  simp only [exec, execDecv, hs, hout, respond_eq]

/-- R58: an OK response to MODINV has one item. -/
theorem cnt_modinv {a n : Word} (h : answerOf (.modinv a n) s = some r) (hok : r.status = .ok) : r.cnt = 1#3 := by
  obtain ⟨e, hexec⟩ | ⟨x, hexec⟩ := exec_modinv_cases a n
  · cases h.symm.trans (answerOf_of_exec (hexec s))
    cases hok
  · cases h.symm.trans (answerOf_of_exec (hexec s))
    rfl

/-- R63: the response to ENC has one item for a letter, none else. -/
theorem cnt_enc {v : Variant} {c : Byte} (h : answerOf (.enc v c) s = some r) :
    r.cnt = if (enc v c).isSome then 1#3 else 0#3 := by
  cases h.symm.trans (answerOf_of_exec (congrArg Host.Outcome.next (respondOptional_eq _ s)))
  simp only [Option.isSome_map]

/-- R64: the response to DEC has one item. -/
theorem cnt_dec {v : Variant} {x : Word} (h : answerOf (.dec v x) s = some r) : r.cnt = 1#3 := by
  cases h.symm.trans (answerOf_of_exec (exec_dec_eq v x s))
  rfl

/-- R66: an OK response to SETKEY has one item. -/
theorem cnt_setkey {a b n : Word} (h : answerOf (.setkey a b n) s = some r) (hok : r.status = .ok) :
    r.cnt = 1#3 := by
  obtain ⟨e, hexec⟩ | ⟨k, -, -, -, -, hexec⟩ := exec_setkey_cases a b n
  · cases h.symm.trans (answerOf_of_exec (hexec s))
    cases hok
  · cases h.symm.trans (answerOf_of_exec (hexec s))
    rfl

/-- R68: an OK response to DECC has one item for a letter of the key's alphabet, none else. -/
theorem cnt_decc {c : Byte} (h : answerOf (.decc c) s = some r) (hok : r.status = .ok) :
    ∃ k, s.key = some k ∧ r.cnt = if (enc k.n c).isSome then 1#3 else 0#3 := by
  cases hs : s.key with
  | none =>
    cases h.symm.trans (answerOf_of_exec (exec_decc_noKey hs c))
    cases hok
  | some k =>
    refine ⟨k, rfl, ?_⟩
    have hexec := exec_decc_keyed hs c
    rw [respondOptional_eq] at hexec
    cases h.symm.trans (answerOf_of_exec hexec)
    simp only [Option.isSome_map, isSome_decodeChar, loadKey]

/-- R71: an OK response to DECV has an item for every letter among the selected lanes. -/
theorem cnt_decv {lm : BitVec 4} {c0 c1 c2 c3 : Byte} (h : answerOf (.decv lm c0 c1 c2 c3) s = some r)
    (hok : r.status = .ok) :
    ∃ k, s.key = some k ∧
      r.cnt.toNat = (selectLanes lm c0 c1 c2 c3).countP fun c => (enc k.n c).isSome := by
  cases hs : s.key with
  | none =>
    cases h.symm.trans (answerOf_of_exec (exec_decv_noKey hs lm c0 c1 c2 c3))
    cases hok
  | some k =>
    refine ⟨k, rfl, ?_⟩
    cases h.symm.trans (answerOf_of_exec (exec_decv_keyed hs rfl))
    have hlanes := length_selectLanes_le lm c0 c1 c2 c3
    have hle : ((selectLanes lm c0 c1 c2 c3).countP fun c => (enc k.n c).isSome) < 2 ^ 3 :=
      List.countP_le_length.trans_lt (by omega)
    rw [length_decodeText]
    exact (BitVec.toNat_ofNat ..).trans (Nat.mod_eq_of_lt hle)

/-- R74: an OK response to RDKEY has one item. -/
theorem cnt_rdkey {sel : BitVec 3} (h : answerOf (.rdkey sel) s = some r) (hok : r.status = .ok) :
    r.cnt = 1#3 := by
  by_cases h4 : 4#3 < sel
  · cases h.symm.trans (answerOf_of_exec (exec_rdkey_reserved h4 s))
    cases hok
  by_cases h0 : sel = 0#3
  · subst h0
    cases h.symm.trans (answerOf_of_exec (exec_rdkey_status s))
    rfl
  have h1 : 1#3 ≤ sel := by bv_omega
  have h4 : sel ≤ 4#3 := BitVec.not_lt.mp h4
  cases hs : s.key with
  | none =>
    cases h.symm.trans (answerOf_of_exec (exec_rdkey_noKey hs h1 h4))
    cases hok
  | some k =>
    obtain ⟨w, hw⟩ := (exists_keyRegister_iff k).mpr ⟨h1, h4⟩
    cases h.symm.trans (answerOf_of_exec (exec_rdkey_register hs hw))
    rfl

end

/-- Settles O40: an error by the form of every response, an OK response by one lemma for each command. -/
theorem itemCountsFollowTheCommand : Obligations.ItemCountsFollowTheCommand := by
  unfold Obligations.ItemCountsFollowTheCommand
  intro i s r h
  obtain ⟨herr, -, hzero⟩ := responseValid_of_answerOf h
  refine ⟨fun hne => ⟨herr hne, hzero (herr hne)⟩, fun hok => ?_⟩
  cases i with
  | modinv a n => exact cnt_modinv h hok
  | enc v c => exact cnt_enc h
  | dec v x => exact cnt_dec h
  | setkey a b n => exact cnt_setkey h hok
  | decc c => exact cnt_decc h hok
  | decv lm c0 c1 c2 c3 => exact cnt_decv h hok
  | rdkey sel => exact cnt_rdkey h hok

end Sys2Proof.Machine
end

section
/-! PROOFS of the family 40_modular_inverse.md: the contract of `modinv` (R55) and the answer of MODINV (R58). -/

namespace Sys2Proof.Machine

/-! ### The contract of `modinv` (R55) -/

/-- R55: a modulus of at most 1 is refused. -/
theorem modinv_of_le_one {n : Int} (a : Int) (hn : n ≤ 1) : modinv a n = .error .badModulus := if_pos hn

/-- R55, R56: from n = 2 on, `modinv` is the extended Euclidean algorithm. -/
theorem modinv_of_two_le {n : Int} (a : Int) (hn : 2 ≤ n) : modinv a n = eeaInverse a n := if_neg (by omega)

/-- R55: an integer that shares a factor with n has no inverse. -/
theorem modinv_of_gcd_ne_one {a n : Int} (hn : 2 ≤ n) (hg : Int.gcd a n ≠ 1) :
    modinv a n = .error .notInvertible := by
  rw [modinv_of_two_le a hn]
  obtain ⟨-, herror⟩ | ⟨hcoprime, -⟩ := eeaInverse_cases a n hn
  · exact herror
  · exact absurd hcoprime hg

/-- R55: an integer coprime to n has an inverse, and `modinv` finds it. -/
theorem exists_modinv_of_gcd_eq_one {a n : Int} (hn : 2 ≤ n) (hg : Int.gcd a n = 1) : ∃ x, modinv a n = .ok x := by
  rw [modinv_of_two_le a hn]
  obtain ⟨hne, -⟩ | ⟨-, x, hok, -⟩ := eeaInverse_cases a n hn
  · exact absurd hg hne
  · exact ⟨x, hok⟩

/-- Settles O12: the two errors by their lemmas; when gcd(a, n) = 1, the success has the properties of
`modinv_eq_ok_iff`, and any other inverse agrees with it modulo n. -/
theorem theEuclideanAlgorithmMeetsTheContract : Obligations.TheEuclideanAlgorithmMeetsTheContract := by
  unfold Obligations.TheEuclideanAlgorithmMeetsTheContract
  intro a n
  refine ⟨modinv_of_le_one a, modinv_of_gcd_ne_one, fun hn hg => ?_⟩
  obtain ⟨x, hok⟩ := exists_modinv_of_gcd_eq_one hn hg
  obtain ⟨-, hx, hxn, hax⟩ := modinv_eq_ok_iff.mp hok
  refine ⟨x, hok, hx, hxn, (emod_eq_one_iff hn).mpr hax, fun y hy hyn hay => ?_⟩
  have hagree : y ≡ x [ZMOD n] := inverse_unique ((emod_eq_one_iff hn).mp hay) hax
  exact eq_of_modEq_of_range hagree hy hyn hx hxn

/-! ### The answer of MODINV (R58) -/

/-- R58: when `modinv` succeeds, MODINV answers its result as the one item and changes only the phase. -/
theorem exec_modinv_of_ok {a n : Word} {x : Int} (h : modinv a.toInt n.toInt = .ok x) (s : State) :
    exec (.modinv a n) s = .next (s.withPhase (.responding ⟨.ok, 1#3, BitVec.ofInt 32 x⟩)) := by
  simp only [exec, execModinv, h, respond_eq]

/-- Settles O15: an x in range with a · x ≡ 1 modulo n is the result of `modinv`, which MODINV answers. -/
theorem modinvAnswersTheInverse : Obligations.ModinvAnswersTheInverse := by
  unfold Obligations.ModinvAnswersTheInverse
  intro a n x s hn hx hxn hax
  exact exec_modinv_of_ok (modinv_eq_ok_iff.mpr ⟨hn, hx, hxn, (emod_eq_one_iff hn).mp hax⟩) s

end Sys2Proof.Machine
end

section
/-! PROOFS of the family 41_alphabet_codec.md: ENC for every code (R60, R63), and the length, concatenation and
alphabet of decoded texts (R73). -/

namespace Sys2Proof.Machine

/-! ### Upper-casing (R59) -/

/-- R59: the codes of a to z go down by 0x20. -/
theorem up_of_lower {c : Byte} (h : 0x61 ≤ c.toNat ∧ c.toNat ≤ 0x7A) : up c = c - 0x20#8 := if_pos h

/-- R59: a code other than a to z and ñ is its own upper case. -/
theorem up_of_not_lower {c : Byte} (h : ¬(0x61 ≤ c.toNat ∧ c.toNat ≤ 0x7A)) (hn : c ≠ 0xF1#8) : up c = c :=
  (if_neg h).trans (if_neg hn)

/-- R59: every code below that of a is its own upper case. -/
theorem up_of_lt {c : Byte} (h : c.toNat < 0x61) : up c = c :=
  up_of_not_lower (by omega) (by bv_omega)

/-- R60: a letter a to z has the index of the letter A to Z that stands 0x20 before it. -/
theorem enc_of_lower (v : Variant) {c : Byte} (h : 0x61 ≤ c.toNat ∧ c.toNat ≤ 0x7A) :
    enc v c = enc v (c - 0x20#8) := by
  rw [← enc_up v c, up_of_lower h]

/-- The number of the code that stands 0x20 before a letter a to z. -/
theorem toNat_sub_of_lower {c : Byte} (h : 0x61 ≤ c.toNat ∧ c.toNat ≤ 0x7A) :
    (c - 0x20#8).toNat = c.toNat - 0x20 := by
  bv_omega

/-! ### The index of a code (R60) -/

/-- R60: in the 26, A to Z have the indices 0 to 25. -/
theorem enc_latin26_of_upper {c : Byte} (h : 0x41 ≤ c.toNat ∧ c.toNat ≤ 0x5A) :
    enc .latin26 c = some (c.toNat - 0x41) := by
  rw [enc, up_of_lt (by omega)]
  exact if_pos h

/-- R60: in the 26, a to z have the indices 0 to 25. -/
theorem enc_latin26_of_lower {c : Byte} (h : 0x61 ≤ c.toNat ∧ c.toNat ≤ 0x7A) :
    enc .latin26 c = some (c.toNat - 0x61) := by
  have hc := toNat_sub_of_lower h
  rw [enc_of_lower _ h, enc_latin26_of_upper (by omega), hc, Nat.sub_sub]

/-- R60: a code outside A to Z and a to z is no letter of the 26. -/
theorem enc_latin26_of_nonletter {c : Byte} (hu : ¬(0x41 ≤ c.toNat ∧ c.toNat ≤ 0x5A))
    (hl : ¬(0x61 ≤ c.toNat ∧ c.toNat ≤ 0x7A)) : enc .latin26 c = none := by
  by_cases hn : c = 0xF1#8
  · subst hn
    decide
  · rw [enc, up_of_not_lower hl hn]
    exact if_neg hu

/-- R60: in the 27, A to N have the indices 0 to 13. -/
theorem enc_latin27_of_upper_le_N {c : Byte} (h : 0x41 ≤ c.toNat ∧ c.toNat ≤ 0x4E) :
    enc .latin27 c = some (c.toNat - 0x41) := by
  rw [enc, up_of_lt (by omega)]
  exact if_pos h

/-- R60: in the 27, O to Z have the indices 15 to 26. -/
theorem enc_latin27_of_upper_gt_N {c : Byte} (h : 0x4F ≤ c.toNat ∧ c.toNat ≤ 0x5A) :
    enc .latin27 c = some (c.toNat - 0x40) := by
  rw [enc, up_of_lt (by omega), if_neg (by bv_omega), if_neg (by bv_omega)]
  exact (if_pos h).trans (congrArg some (by omega))

/-- R60: in the 27, a to n have the indices 0 to 13. -/
theorem enc_latin27_of_lower_le_n {c : Byte} (h : 0x61 ≤ c.toNat ∧ c.toNat ≤ 0x6E) :
    enc .latin27 c = some (c.toNat - 0x61) := by
  have hl : 0x61 ≤ c.toNat ∧ c.toNat ≤ 0x7A := by omega
  have hc := toNat_sub_of_lower hl
  rw [enc_of_lower _ hl, enc_latin27_of_upper_le_N (by omega), hc, Nat.sub_sub]

/-- R60: in the 27, o to z have the indices 15 to 26. -/
theorem enc_latin27_of_lower_gt_n {c : Byte} (h : 0x6F ≤ c.toNat ∧ c.toNat ≤ 0x7A) :
    enc .latin27 c = some (c.toNat - 0x60) := by
  have hl : 0x61 ≤ c.toNat ∧ c.toNat ≤ 0x7A := by omega
  have hc := toNat_sub_of_lower hl
  rw [enc_of_lower _ hl, enc_latin27_of_upper_gt_N (by omega), hc, Nat.sub_sub]

/-- R60: in the 27, Ñ and ñ have the index 14. -/
theorem enc_latin27_of_enye {c : Byte} (h : c = 0xD1#8 ∨ c = 0xF1#8) : enc .latin27 c = some 14 := by
  obtain rfl | rfl := h <;> decide

/-- R60: a code outside A to Z and a to z, and neither Ñ nor ñ, is no letter of the 27. -/
theorem enc_latin27_of_nonletter {c : Byte} (hu : ¬(0x41 ≤ c.toNat ∧ c.toNat ≤ 0x5A))
    (hl : ¬(0x61 ≤ c.toNat ∧ c.toNat ≤ 0x7A)) (hn : ¬(c = 0xD1#8 ∨ c = 0xF1#8)) : enc .latin27 c = none := by
  obtain ⟨hupper, hlower⟩ := not_or.mp hn
  rw [enc, up_of_not_lower hl hlower, if_neg (by bv_omega), if_neg hupper, if_neg (by bv_omega)]

/-! ### The answer of ENC (R63) -/

/-- R63: ENC answers the index of a letter, which fits the five bits of a CharacterIndex, and changes only the phase. -/
theorem exec_enc_of_some {v : Variant} {c : Byte} {i : Nat} (h : enc v c = some i) (s : State) :
    exec (.enc v c) s = .next (s.withPhase (.responding ⟨.ok, 1#3, BitVec.ofNat 32 i⟩)) := by
  obtain ⟨hi, -⟩ := enc_some_spec h
  have hn : alphabetSize v ≤ 27 := by cases v <;> decide
  have hword : (BitVec.ofNat 5 i).setWidth 32 = BitVec.ofNat 32 i :=
    BitVec.setWidth_ofNat_of_le_of_lt (by omega) (by omega)
  simp only [exec, execEnc, h, Option.map_some, hword, respondOptional_eq]
  rfl

/-- R63: ENC answers absent for a code that is no letter, and changes only the phase. -/
theorem exec_enc_of_none {v : Variant} {c : Byte} (h : enc v c = none) (s : State) :
    exec (.enc v c) s = .next (s.withPhase (.responding ⟨.ok, 0#3, 0#32⟩)) := by
  simp only [exec, execEnc, h, Option.map_none, respondOptional_eq]
  rfl

/-- Settles O16: range by range of the code, the index by one lemma about `enc` and the answer by `exec_enc_of_some`
or `exec_enc_of_none`. -/
theorem encAnswersTheIndexOrAbsent : Obligations.EncAnswersTheIndexOrAbsent := by
  unfold Obligations.EncAnswersTheIndexOrAbsent
  intro c s
  constructor
  · split_ifs with hu hl
    · exact exec_enc_of_some (enc_latin26_of_upper hu) s
    · exact exec_enc_of_some (enc_latin26_of_lower hl) s
    · exact exec_enc_of_none (enc_latin26_of_nonletter hu hl) s
  · split_ifs with huN hu hlN hl hn
    · exact exec_enc_of_some (enc_latin27_of_upper_le_N huN) s
    · exact exec_enc_of_some (enc_latin27_of_upper_gt_N hu) s
    · exact exec_enc_of_some (enc_latin27_of_lower_le_n hlN) s
    · exact exec_enc_of_some (enc_latin27_of_lower_gt_n hl) s
    · exact exec_enc_of_some (enc_latin27_of_enye hn) s
    · exact exec_enc_of_none (enc_latin27_of_nonletter (by omega) (by omega) hn) s

/-! ### Decoded texts (R73) -/

/-- R31, R32: a table has one entry for each index of its alphabet. -/
theorem length_table (v : Variant) : (table v).length = alphabetSize v := by
  cases v <;> rfl

/-- R34, R61: whatever the index, the character looked up is an entry of the table. -/
theorem dec_mem_table (v : Variant) (i : Int) : dec v i ∈ table v := by
  obtain ⟨hnn, hlt⟩ := emod_range i (show (0 : Int) < alphabetSize v by have := two_le_alphabetSize v; omega)
  have hin : (emod i (alphabetSize v)).toNat < (table v).length := by rw [length_table]; omega
  rw [dec, List.getD_eq_getElem _ _ hin]
  exact List.getElem_mem hin

/-- R67: a decoded character is an entry of the table of the key's alphabet. -/
theorem mem_table_of_decodeChar {k : AffineKey} {c m : Byte} (h : decodeChar k c = some m) : m ∈ table k.n := by
  cases hc : enc k.n c with
  | none => cases h.symm.trans ((decodeChar_eq_none_iff k c).mpr hc)
  | some ci =>
    cases h.symm.trans (decodeChar_of_enc hc)
    exact dec_mem_table _ _

/-- R73 (c): a text may be cut anywhere. -/
theorem decodeText_append (k : AffineKey) (p q : List Byte) :
    decodeText k (p ++ q) = decodeText k p ++ decodeText k q :=
  List.filterMap_append

/-- R73 (d): a decoded text is made of entries of the table of the key's alphabet. -/
theorem mem_table_of_mem_decodeText {k : AffineKey} {text : List Byte} {m : Byte} (h : m ∈ decodeText k text) :
    m ∈ table k.n := by
  obtain ⟨c, -, hc⟩ := List.mem_filterMap.mp h
  exact mem_table_of_decodeChar hc

/-- Settles O29: one lemma for each clause. -/
theorem decodedTextFactsHold : Obligations.DecodedTextFactsHold := by
  unfold Obligations.DecodedTextFactsHold
  exact ⟨length_decodeText, decodeText_append, fun _ _ _ => mem_table_of_mem_decodeText⟩

end Sys2Proof.Machine
end

section
/-! PROOFS of the family 42_affine_decode.md: a successful SETKEY (R65, R66), DECC by the formula (R67, R68), and the
output of a host that presents a text by DECC and DECV (R72). -/

namespace Sys2Proof.Machine

/-! ### A successful SETKEY (R65, R66) -/

/-- R21: the integer of an alphabet is the size of that alphabet. -/
theorem variantOfSize_alphabetSize (v : Variant) : variantOfSize (alphabetSize v) = some v := by
  cases v <;> rfl

/-- R65: `make_key` succeeds for the size of an alphabet when a has an inverse modulo it. -/
theorem makeKey_of_modinv {a n x : Int} {v : Variant} (hn : n = alphabetSize v) (h : modinv a n = .ok x) (b : Int) :
    makeKey a b n = .ok { a := a, b := b, n := v, aInv := x } := by
  have hv : variantOfSize n = some v := hn ▸ variantOfSize_alphabetSize v
  simp only [makeKey, hv, h]

/-- R66: when `make_key` succeeds, SETKEY stores the key and answers its cached inverse. -/
theorem exec_setkey_of_ok {a b n : Word} {k : AffineKey} (h : makeKey a.toInt b.toInt n.toInt = .ok k) (s : State) :
    exec (.setkey a b n) s = .next ((s.withKey (some (storeKey k))).withPhase
      (.responding ⟨.ok, 1#3, (BitVec.ofInt 5 k.aInv).setWidth 32⟩)) := by
  simp only [exec, execSetkey, h, respond_eq]

/-- R22, R66: an inverse in 0 .. n − 1 is the same integer in the result word as in `KEY.AINV`. -/
theorem setWidth_ofInt_ainv {x : Int} {v : Variant} (h0 : 0 ≤ x) (hn : x < alphabetSize v) :
    (BitVec.ofInt 5 x).setWidth 32 = BitVec.ofInt 32 x := by
  calc (BitVec.ofInt 5 x).setWidth 32
      = BitVec.ofInt 32 ((BitVec.ofInt 5 x).setWidth 32).toInt := BitVec.ofInt_toInt.symm
    _ = BitVec.ofInt 32 x := by rw [toInt_setWidth_ainv, toNat_ofInt_ainv h0 hn]

/-- Settles O19: an x in range with a · x ≡ 1 modulo n is the inverse that `make_key` takes. -/
theorem setkeyInstallsTheKey : Obligations.SetkeyInstallsTheKey := by
  unfold Obligations.SetkeyInstallsTheKey
  intro a b n v x s hn h0 hxn hax
  have h2 : 2 ≤ n.toInt := hn ▸ two_le_alphabetSize v
  have hinv : modinv a.toInt n.toInt = .ok x := modinv_eq_ok_iff.mpr ⟨h2, h0, hxn, (emod_eq_one_iff h2).mp hax⟩
  rw [exec_setkey_of_ok (makeKey_of_modinv hn hinv b.toInt), setWidth_ofInt_ainv h0 (hn ▸ hxn)]
  simp only [storeKey, BitVec.ofInt_toInt]

/-! ### DECC by the formula (R67, R68) -/

/-- R68: with a key, DECC answers a decoded character as its one item and changes only the phase. -/
theorem exec_decc_of_some {s : State} {k : Key} {c m : Byte} (hs : s.key = some k)
    (h : decodeChar (loadKey k) c = some m) :
    exec (.decc c) s = .next (s.withPhase (.responding ⟨.ok, 1#3, m.setWidth 32⟩)) := by
  rw [exec_decc_keyed hs, h]
  rfl

/-- R68: with a key, DECC answers absent with status OK when the character does not decode, and changes only the
phase. -/
theorem exec_decc_of_none {s : State} {k : Key} {c : Byte} (hs : s.key = some k)
    (h : decodeChar (loadKey k) c = none) :
    exec (.decc c) s = .next (s.withPhase (.responding ⟨.ok, 0#3, 0#32⟩)) := by
  rw [exec_decc_keyed hs, h]
  rfl

/-- R67: a letter decodes to the table entry at its decoded index. -/
theorem decodeChar_of_decodeIndex {k : AffineKey} {c : Byte} {ci m : Nat} (hc : enc k.n c = some ci)
    (hm : m < alphabetSize k.n) (h : decodeIndex k ci = m) :
    decodeChar k c = some ((table k.n).getD m 0#8) := by
  rw [decodeChar_of_enc hc, h, dec_of_lt hm]

/-- Settles O22: the formula of the statement is `decodeIndex` under the loaded key; a code that is no letter does not
decode. -/
theorem deccDecodesByTheFormula : Obligations.DeccDecodesByTheFormula := by
  unfold Obligations.DeccDecodesByTheFormula
  intro c k s hs
  constructor
  · intro ci m hc hm hformula
    have hindex : decodeIndex (loadKey k) ci = m := hformula
    exact exec_decc_of_some hs (decodeChar_of_decodeIndex (k := loadKey k) hc hm hindex)
  · intro hc
    exact exec_decc_of_none hs ((decodeChar_eq_none_iff (loadKey k) c).mpr hc)

/-! ### The packing of characters into a response (R35, R71) -/

/-- Lane 0 of a word with a character put in below is that character. -/
theorem lane_shift_or_zero (w : Word) (b : Byte) : lane ((w <<< 8) ||| b.setWidth 32) 0 = b := by
  apply BitVec.eq_of_getLsbD_eq
  intro i hi
  have h32 : i < 32 := by omega
  simp [lane, hi, h32]

/-- The lanes of a word go up by one when a character is put in below. -/
theorem lane_shift_or_succ (w : Word) (b : Byte) {j : Nat} (hj : j + 1 < 4) :
    lane ((w <<< 8) ||| b.setWidth 32) (j + 1) = lane w j := by
  apply BitVec.eq_of_getLsbD_eq
  intro i hi
  have hin : 8 * (j + 1) + i < 32 := by omega
  have hlow : ¬ 8 * (j + 1) + i < 8 := by omega
  have hhigh : b.getLsbD (8 * (j + 1) + i) = false := BitVec.getLsbD_of_ge _ _ (by omega)
  have hsub : 8 * (j + 1) + i - 8 = 8 * j + i := by omega
  simp only [lane, BitVec.getLsbD_extractLsb', BitVec.getLsbD_or, BitVec.getLsbD_shiftLeft, BitVec.getLsbD_setWidth,
    hi, hin, hlow, hhigh, hsub, decide_true, decide_false, Bool.not_false, Bool.and_false, Bool.true_and, Bool.or_false]

/-- R71: lane j of packed characters is the one at place j, 0 above them. -/
theorem lane_packLanes (bs : List Byte) {j : Nat} (hj : j < 4) : lane (packLanes bs) j = bs.getD j 0#8 := by
  induction bs generalizing j with
  | nil => simp [packLanes, lane]
  | cons b bs ih =>
    cases j with
    | zero => exact lane_shift_or_zero _ b
    | succ j => exact (lane_shift_or_succ _ b hj).trans (ih (by omega))

/-- R71, R72: from the response that packs up to four characters the host reads those characters. -/
theorem outputOf_packLanes {out : List Byte} (h : out.length ≤ 4) :
    outputOf ⟨.ok, BitVec.ofNat 3 out.length, packLanes out⟩ = out := by
  have hcnt : (BitVec.ofNat 3 out.length).toNat = out.length :=
    (BitVec.toNat_ofNat ..).trans (Nat.mod_eq_of_lt (by omega))
  rw [outputOf, hcnt]
  apply List.ext_getElem (by simp)
  intro j _ hj
  rw [List.getElem_map, List.getElem_range, lane_packLanes out (by omega), List.getD_eq_getElem _ _ hj]

/-! ### The host's output (R72) -/

/-- R68, R71: with a key, DECC and DECV alike answer the packed decoded text of the characters they present. -/
theorem exec_decode_keyed {s : State} {k : Key} (hs : s.key = some k) {i : Instr} (hi : isDecode i = true)
    {out : List Byte} (hout : decodeText (loadKey k) (presented i) = out) :
    exec i s = .next (s.withPhase (.responding ⟨.ok, BitVec.ofNat 3 out.length, packLanes out⟩)) := by
  cases i with
  | decv lm c0 c1 c2 c3 => exact exec_decv_keyed hs hout
  | decc c =>
    subst hout
    cases hc : decodeChar (loadKey k) c with
    | none =>
      have hnone : decodeText (loadKey k) (presented (.decc c)) = [] := List.filterMap_cons_none hc
      rw [exec_decc_of_none hs hc, hnone]
      rfl
    | some m =>
      have hone : decodeText (loadKey k) (presented (.decc c)) = [m] := List.filterMap_cons_some hc
      have hpack : packLanes [m] = m.setWidth 32 := by simp [packLanes]
      rw [exec_decc_of_some hs hc, hone, hpack]
      rfl
  | modinv | enc | dec | setkey | rdkey => cases hi

/-- R71, R72: a command presents at most four characters. -/
theorem length_presented_le (i : Instr) : (presented i).length ≤ 4 := by
  cases i with
  | decv lm c0 c1 c2 c3 => exact length_selectLanes_le lm c0 c1 c2 c3
  | modinv | enc | dec | setkey | decc | rdkey => simp [presented]

/-- R72: the host reads the response of a DECC or DECV by its low lanes. -/
theorem appended_of_isDecode {i : Instr} (hi : isDecode i = true) (r : Response) : appended i r = outputOf r := by
  cases i with
  | decc | decv => rfl
  | modinv | enc | dec | setkey | rdkey => cases hi

/-- R95: the host takes the response that the execution of the command leaves on the port. -/
theorem transact_of_exec {i : Instr} {s u : State} {r : Response}
    (h : exec i s = .next (u.withPhase (.responding r))) : transact i s = some (deliver r u, r) := by
  rw [transact, h]
  rfl

/-- R72: with a key, a DECC or DECV delivers one response, from which the host appends the decoded text of what the
command presented. -/
theorem transact_decode {s : State} {k : Key} (hs : s.key = some k) {i : Instr} (hi : isDecode i = true) :
    ∃ r, transact i s = some (deliver r s, r) ∧ appended i r = decodeText (loadKey k) (presented i) := by
  have hlen : (decodeText (loadKey k) (presented i)).length ≤ 4 :=
    (List.length_filterMap_le _ _).trans (length_presented_le i)
  exact ⟨_, transact_of_exec (exec_decode_keyed hs hi rfl),
    (appended_of_isDecode hi _).trans (outputOf_packLanes hlen)⟩

/-- Settles O31: command by command, each appends the decoded text of what it presents (`transact_decode`), and a text
may be cut anywhere (`decodeText_append`). -/
theorem anyGroupingDecodesTheWholeText : Obligations.AnyGroupingDecodesTheWholeText := by
  unfold Obligations.AnyGroupingDecodesTheWholeText
  intro cmds k s hs hcmds
  induction cmds generalizing s with
  | nil => exact ⟨s, rfl, hs⟩
  | cons i cmds ih =>
    obtain ⟨hi, hrest⟩ := List.forall_mem_cons.mp hcmds
    obtain ⟨r, hfirst, happ⟩ := transact_decode hs hi
    obtain ⟨t, hsession, ht⟩ := ih (deliver r s) hs hrest
    refine ⟨t, ?_, ht⟩
    simp only [session, hfirst, hsession, happ, List.flatMap_cons, decodeText_append]

end Sys2Proof.Machine
end

section
/-! PROOFS of the family 43_stream_filter_map.md: the response to DECV, lane by lane (R71). -/

namespace Sys2Proof.Machine

/-- R48, R72: the host reads as many characters as `cnt` says. -/
theorem length_outputOf (r : Response) : (outputOf r).length = r.cnt.toNat := by
  rw [outputOf, List.length_map, List.length_range]

/-- R35: a word has four lanes; past them there is nothing but 0. -/
theorem lane_of_ge (w : Word) {j : Nat} (hj : 4 ≤ j) : lane w j = 0#8 := by
  apply BitVec.eq_of_getLsbD_eq
  intro i hi
  have hbit : w.getLsbD (8 * j + i) = false := BitVec.getLsbD_of_ge _ _ (by omega)
  simp [lane, hbit]

/-- R71: every lane past the packed characters is 0. -/
theorem lane_packLanes_of_length_le {bs : List Byte} {j : Nat} (h : bs.length ≤ j) : lane (packLanes bs) j = 0#8 := by
  rcases lt_or_ge j 4 with hj | hj
  · rw [lane_packLanes bs hj, List.getD_eq_default _ _ h]
  · exact lane_of_ge _ hj

/-- R71: a packed character among the first four stands in the lane of its place. -/
theorem lane_packLanes_of_getElem? {bs : List Byte} {j : Nat} {b : Byte} (hj : j < 4) (h : bs[j]? = some b) :
    lane (packLanes bs) j = b := by
  rw [lane_packLanes bs hj, List.getD_eq_getElem?_getD, h, Option.getD_some]

/-- R70, R71: at most four lanes are selected, so at most four characters come out. -/
theorem length_decodeText_selectLanes_le (k : AffineKey) (lm : BitVec 4) (c0 c1 c2 c3 : Byte) :
    (decodeText k (selectLanes lm c0 c1 c2 c3)).length ≤ 4 :=
  (List.length_filterMap_le _ _).trans (length_selectLanes_le lm c0 c1 c2 c3)

/-- Settles O27: DECV answers the packed decoded text of the selected lanes (`exec_decv_keyed`), at most four
characters, so each stands in a lane of its own. -/
theorem decvPacksTheDecodedLanes : Obligations.DecvPacksTheDecodedLanes := by
  unfold Obligations.DecvPacksTheDecodedLanes
  intro lm c0 c1 c2 c3 k out s hs hout
  have hlen : out.length ≤ 4 := hout ▸ length_decodeText_selectLanes_le (loadKey k) lm c0 c1 c2 c3
  have houtput := outputOf_packLanes hlen
  refine ⟨_, exec_decv_keyed hs hout.symm, rfl, ?cnt, houtput, ?packed, ?zeroAbove⟩
  case cnt => rw [← length_outputOf, houtput]
  case packed =>
    intro j b hb
    obtain ⟨hj, -⟩ := List.getElem?_eq_some_iff.mp hb
    exact lane_packLanes_of_getElem? (by omega) hb
  case zeroAbove => exact fun _ hj => lane_packLanes_of_length_le hj

end Sys2Proof.Machine
end

section
/-! PROOFS of the family 60_exceptions.md: what raises each of the five errors (R76 to R80), what an error leaves in the
state (R75, R82), and the edges at which nothing is executed (R86, R91). -/

namespace Sys2Proof.Machine

/-! ### Illegal commands (R49, R80) -/

/-- R80: a command that does not decode raises IllegalCommand and changes only the phase. -/
theorem executeCommand_of_reject {cmd : Cmd} {e : Reject} (h : decode cmd = .error e) (s : State) :
    executeCommand cmd s = .next (s.withPhase (.responding ⟨.err .illegalCommand, 0#3, 0#32⟩)) := by
  rw [executeCommand, h, raise_eq]

/-- R49: an instruction word that is none of the legal ones does not decode, whatever the operand fields. -/
theorem decode_bundle_of_illegal {inst : InstWord} (h : inst ∉ legalInst) (opa opb opn : Word) :
    ∃ e, decode (bundle inst opa opb opn) = .error e := by
  obtain ⟨-, -, hlegal⟩ := exactlyTheLegalInstValuesDecode
  cases hd : decode (bundle inst opa opb opn) with
  | error e => exact ⟨e, rfl⟩
  | ok i =>
    have hmem := (hlegal _).mp ⟨i, hd⟩
    rw [instField_bundle] at hmem
    exact absurd hmem h

/-- Settles O3: an illegal word does not decode (`decode_bundle_of_illegal`), and what does not decode raises
IllegalCommand. -/
theorem illegalCommandsAreAnswered : Obligations.IllegalCommandsAreAnswered := by
  unfold Obligations.IllegalCommandsAreAnswered
  refine ⟨rfl, fun inst opa opb opn s h => ?_⟩
  obtain ⟨e, hd⟩ := decode_bundle_of_illegal h opa opb opn
  exact executeCommand_of_reject hd s

/-! ### The errors of MODINV and SETKEY (R55, R65, R66) -/

/-- R55: the two errors of `modinv`, each exactly where it is raised. -/
theorem modinv_eq_error_iff {a n : Int} {e : Err} :
    modinv a n = .error e ↔
      (n ≤ 1 ∧ e = .badModulus) ∨ (2 ≤ n ∧ Int.gcd a n ≠ 1 ∧ e = .notInvertible) := by
  constructor
  · intro h
    rcases le_or_gt n 1 with hn | hn
    · cases h.symm.trans (modinv_of_le_one a hn)
      exact .inl ⟨hn, rfl⟩
    · have hg : Int.gcd a n ≠ 1 := by
        intro hg
        obtain ⟨x, hx⟩ := exists_modinv_of_gcd_eq_one hn hg
        cases h.symm.trans hx
      cases h.symm.trans (modinv_of_gcd_ne_one hn hg)
      exact .inr ⟨hn, hg, rfl⟩
  · rintro (⟨hn, rfl⟩ | ⟨hn, hg, rfl⟩)
    · exact modinv_of_le_one a hn
    · exact modinv_of_gcd_ne_one hn hg

/-- R21: no alphabet has a size other than 26 and 27. -/
theorem variantOfSize_eq_none {n : Int} (h26 : n ≠ 26) (h27 : n ≠ 27) : variantOfSize n = none := by
  rw [variantOfSize, if_neg h26, if_neg h27]

/-- R21: 26 and 27 are the sizes of the alphabets. -/
theorem exists_alphabetSize_eq {n : Int} (h : n = 26 ∨ n = 27) : ∃ v, n = alphabetSize v := by
  rcases h with rfl | rfl
  · exact ⟨.latin26, rfl⟩
  · exact ⟨.latin27, rfl⟩

/-- R65: for the size of an alphabet `make_key` has the errors of `modinv`. -/
theorem makeKey_eq_error_iff_modinv {a n : Int} {v : Variant} (hn : n = alphabetSize v) (b : Int) {e : Err} :
    makeKey a b n = .error e ↔ modinv a n = .error e := by
  have hv : variantOfSize n = some v := hn ▸ variantOfSize_alphabetSize v
  cases h : modinv a n <;> simp [makeKey, hv, h]

/-- R65, R77: any other size is refused, whatever a is. -/
theorem makeKey_of_other_size {n : Int} (a b : Int) (h26 : n ≠ 26) (h27 : n ≠ 27) :
    makeKey a b n = .error .invalidAlphabetSize := by
  simp only [makeKey, variantOfSize_eq_none h26 h27]

/-- R65, R77: the two errors of `make_key`, each exactly where it is raised; the size is checked first. -/
theorem makeKey_eq_error_iff {a b n : Int} {e : Err} :
    makeKey a b n = .error e ↔
      (n ≠ 26 ∧ n ≠ 27 ∧ e = .invalidAlphabetSize) ∨
      ((n = 26 ∨ n = 27) ∧ Int.gcd a n ≠ 1 ∧ e = .notInvertible) := by
  by_cases hn : n = 26 ∨ n = 27
  · obtain ⟨v, hv⟩ := exists_alphabetSize_eq hn
    have h2 : 2 ≤ n := hv ▸ two_le_alphabetSize v
    rw [makeKey_eq_error_iff_modinv hv, modinv_eq_error_iff]
    constructor
    · rintro (⟨h1, -⟩ | ⟨-, hg, he⟩)
      · omega
      · exact .inr ⟨hn, hg, he⟩
    · rintro (⟨h26, h27, -⟩ | ⟨-, hg, he⟩)
      · omega
      · exact .inr ⟨h2, hg, he⟩
  · obtain ⟨h26, h27⟩ := not_or.mp hn
    rw [makeKey_of_other_size a b h26 h27, Except.error.injEq]
    constructor
    · exact fun he => .inl ⟨h26, h27, he.symm⟩
    · rintro (⟨-, -, he⟩ | ⟨h, -, -⟩)
      · exact he.symm
      · exact absurd h hn

/-- R58: when `modinv` fails, MODINV raises its error and changes only the phase. -/
theorem exec_modinv_of_error {a n : Word} {e : Err} (h : modinv a.toInt n.toInt = .error e) (s : State) :
    exec (.modinv a n) s = .next (s.withPhase (.responding ⟨.err e, 0#3, 0#32⟩)) := by
  simp only [exec, execModinv, h, raise_eq]

/-- R66: when `make_key` fails, SETKEY clears the key slot and raises its error. -/
theorem exec_setkey_of_error {a b n : Word} {e : Err} (h : makeKey a.toInt b.toInt n.toInt = .error e) (s : State) :
    exec (.setkey a b n) s = .next ((s.withKey none).withPhase (.responding ⟨.err e, 0#3, 0#32⟩)) := by
  simp only [exec, execSetkey, h, raise_eq]

/-! ### Who raises what (R76 to R80) -/

section
variable {e : Err} {s : State}

/-- R75: a command raises an error exactly when its response has that status. -/
theorem raises_iff_of_exec {i : Instr} {u : State} {r : Response}
    (h : exec i s = .next (u.withPhase (.responding r))) : Raises e i s ↔ r.status = .err e := by
  rw [Raises, answerOf_of_exec h]
  constructor
  · rintro ⟨r', hr', hstatus⟩
    cases hr'
    exact hstatus
  · exact fun hstatus => ⟨r, rfl, hstatus⟩

/-- R58: MODINV raises the errors of `modinv`. -/
theorem modinv_error_of_raises {a n : Word} (h : Raises e (.modinv a n) s) : modinv a.toInt n.toInt = .error e := by
  cases hm : modinv a.toInt n.toInt with
  | error e' =>
    cases (raises_iff_of_exec (exec_modinv_of_error hm s)).mp h
    rfl
  | ok x => cases (raises_iff_of_exec (exec_modinv_of_ok hm s)).mp h

/-- R66: SETKEY raises the errors of `make_key`. -/
theorem makeKey_error_of_raises {a b n : Word} (h : Raises e (.setkey a b n) s) :
    makeKey a.toInt b.toInt n.toInt = .error e := by
  cases hk : makeKey a.toInt b.toInt n.toInt with
  | error e' =>
    cases (raises_iff_of_exec (exec_setkey_of_error hk s)).mp h
    rfl
  | ok k => cases (raises_iff_of_exec (exec_setkey_of_ok hk s)).mp h

/-- R63: ENC raises nothing. -/
theorem not_raises_enc (v : Variant) (c : Byte) : ¬ Raises e (.enc v c) s := by
  intro h
  cases hc : enc v c with
  | none => cases (raises_iff_of_exec (exec_enc_of_none hc s)).mp h
  | some i => cases (raises_iff_of_exec (exec_enc_of_some hc s)).mp h

/-- R64: DEC raises nothing. -/
theorem not_raises_dec (v : Variant) (x : Word) : ¬ Raises e (.dec v x) s := by
  intro h
  cases (raises_iff_of_exec (exec_dec_eq v x s)).mp h

/-- R68, R71: without a key DECC and DECV raise NoKey and change only the phase. -/
theorem exec_decode_noKey (hs : s.key = none) {i : Instr} (hi : isDecode i = true) :
    exec i s = .next (s.withPhase (.responding ⟨.err .noKey, 0#3, 0#32⟩)) := by
  cases i with
  | decc c => exact exec_decc_noKey hs c
  | decv lm c0 c1 c2 c3 => exact exec_decv_noKey hs lm c0 c1 c2 c3
  | modinv | enc | dec | setkey | rdkey => cases hi

/-- R78: DECC and DECV raise NoKey alone, and only without a key. -/
theorem noKey_of_raises_decode {i : Instr} (hi : isDecode i = true) (h : Raises e i s) :
    e = .noKey ∧ s.key = none := by
  cases hs : s.key with
  | none =>
    cases (raises_iff_of_exec (exec_decode_noKey hs hi)).mp h
    exact ⟨rfl, rfl⟩
  | some k => cases (raises_iff_of_exec (exec_decode_keyed hs hi rfl)).mp h

/-- R74: RDKEY raises IllegalCommand for a reserved number, NoKey for the registers 1 to 4 without a key, and nothing
else. -/
theorem raises_rdkey_cases {sel : BitVec 3} (h : Raises e (.rdkey sel) s) :
    (e = .illegalCommand ∧ 4#3 < sel) ∨ (e = .noKey ∧ s.key = none ∧ 1#3 ≤ sel ∧ sel ≤ 4#3) := by
  by_cases h4 : 4#3 < sel
  · cases (raises_iff_of_exec (exec_rdkey_reserved h4 s)).mp h
    exact .inl ⟨rfl, h4⟩
  by_cases h0 : sel = 0#3
  · subst h0
    cases (raises_iff_of_exec (exec_rdkey_status s)).mp h
  have h1 : 1#3 ≤ sel := by bv_omega
  have h4 : sel ≤ 4#3 := BitVec.not_lt.mp h4
  cases hs : s.key with
  | none =>
    cases (raises_iff_of_exec (exec_rdkey_noKey hs h1 h4)).mp h
    exact .inr ⟨rfl, rfl, h1, h4⟩
  | some k =>
    obtain ⟨w, hw⟩ := (exists_keyRegister_iff k).mpr ⟨h1, h4⟩
    cases (raises_iff_of_exec (exec_rdkey_register hs hw)).mp h

/-- R76 to R80: whatever raises an error is a MODINV or SETKEY whose arithmetic fails, a command that lacks its key, or
the read of a reserved register. -/
theorem raises_cases {i : Instr} (h : Raises e i s) :
    (∃ a n, i = .modinv a n ∧ modinv a.toInt n.toInt = .error e) ∨
    (∃ a b n, i = .setkey a b n ∧ makeKey a.toInt b.toInt n.toInt = .error e) ∨
    (e = .noKey ∧ s.key = none ∧
      (isDecode i = true ∨ ∃ sel : BitVec 3, i = .rdkey sel ∧ 1#3 ≤ sel ∧ sel ≤ 4#3)) ∨
    (e = .illegalCommand ∧ ∃ sel : BitVec 3, i = .rdkey sel ∧ 4#3 < sel) := by
  cases i with
  | modinv a n => exact .inl ⟨a, n, rfl, modinv_error_of_raises h⟩
  | enc v c => exact absurd h (not_raises_enc v c)
  | dec v x => exact absurd h (not_raises_dec v x)
  | setkey a b n => exact .inr (.inl ⟨a, b, n, rfl, makeKey_error_of_raises h⟩)
  | decc | decv =>
    obtain ⟨he, hs⟩ := noKey_of_raises_decode rfl h
    exact .inr (.inr (.inl ⟨he, hs, .inl rfl⟩))
  | rdkey sel =>
    obtain ⟨he, h4⟩ | ⟨he, hs, h1, h4⟩ := raises_rdkey_cases h
    · exact .inr (.inr (.inr ⟨he, sel, rfl, h4⟩))
    · exact .inr (.inr (.inl ⟨he, hs, .inr ⟨sel, rfl, h1, h4⟩⟩))

end

/-- Settles O34: `modinv` and `make_key` fail with NotInvertible exactly for a common factor, and of the cases of
`raises_cases` only those two can have this error. -/
theorem notInvertibleIsRaisedForCommonFactors : Obligations.NotInvertibleIsRaisedForCommonFactors := by
  unfold Obligations.NotInvertibleIsRaisedForCommonFactors
  refine ⟨rfl, fun a n s hn hg => exec_modinv_of_error (modinv_of_gcd_ne_one hn hg) s,
    fun a b n s hn hg => exec_setkey_of_error (makeKey_eq_error_iff.mpr (.inr ⟨hn, hg, rfl⟩)) s, fun i s h => ?_⟩
  obtain ⟨a, n, rfl, hm⟩ | ⟨a, b, n, rfl, hk⟩ | ⟨he, -⟩ | ⟨he, -⟩ := raises_cases h
  · obtain ⟨-, he⟩ | ⟨hn, hg, -⟩ := modinv_eq_error_iff.mp hm
    · cases he
    · exact .inl ⟨a, n, rfl, hn, hg⟩
  · obtain ⟨-, -, he⟩ | ⟨hn, hg, -⟩ := makeKey_eq_error_iff.mp hk
    · cases he
    · exact .inr ⟨a, b, n, rfl, hn, hg⟩
  · cases he
  · cases he

/-- Settles O35: `make_key` fails with InvalidAlphabetSize exactly for another size, and of the cases of `raises_cases`
only SETKEY can have this error. -/
theorem invalidAlphabetSizeIsRaisedBySetkey : Obligations.InvalidAlphabetSizeIsRaisedBySetkey := by
  unfold Obligations.InvalidAlphabetSizeIsRaisedBySetkey
  refine ⟨rfl, fun a b n s h26 h27 =>
    exec_setkey_of_error (makeKey_of_other_size a.toInt b.toInt h26 h27) s, fun i s h => ?_⟩
  obtain ⟨a, n, rfl, hm⟩ | ⟨a, b, n, rfl, hk⟩ | ⟨he, -⟩ | ⟨he, -⟩ := raises_cases h
  · obtain ⟨-, he⟩ | ⟨-, -, he⟩ := modinv_eq_error_iff.mp hm <;> cases he
  · obtain ⟨h26, h27, -⟩ | ⟨-, -, he⟩ := makeKey_eq_error_iff.mp hk
    · exact ⟨a, b, n, rfl, h26, h27⟩
    · cases he
  · cases he
  · cases he

/-- Settles O36: the commands that need a key raise NoKey without one; of the cases of `raises_cases` only theirs can
have this error. -/
theorem noKeyIsRaisedWithoutAKey : Obligations.NoKeyIsRaisedWithoutAKey := by
  unfold Obligations.NoKeyIsRaisedWithoutAKey
  refine ⟨rfl, fun i s hs hi => ?_, fun i s h => ?_⟩
  · obtain hi | ⟨sel, rfl, h1, h4⟩ := hi
    · exact exec_decode_noKey hs hi
    · exact exec_rdkey_noKey hs h1 h4
  · obtain ⟨a, n, rfl, hm⟩ | ⟨a, b, n, rfl, hk⟩ | ⟨-, hs, hi⟩ | ⟨he, -⟩ := raises_cases h
    · obtain ⟨-, he⟩ | ⟨-, -, he⟩ := modinv_eq_error_iff.mp hm <;> cases he
    · obtain ⟨-, -, he⟩ | ⟨-, -, he⟩ := makeKey_eq_error_iff.mp hk <;> cases he
    · exact ⟨hs, hi⟩
    · cases he

/-- Settles O37: `modinv` fails with BadModulus exactly for n ≤ 1, and of the cases of `raises_cases` only MODINV can
have this error. -/
theorem badModulusIsRaisedByModinv : Obligations.BadModulusIsRaisedByModinv := by
  unfold Obligations.BadModulusIsRaisedByModinv
  refine ⟨rfl, fun a n s hn => exec_modinv_of_error (modinv_of_le_one a.toInt hn) s, fun i s h => ?_⟩
  obtain ⟨a, n, rfl, hm⟩ | ⟨a, b, n, rfl, hk⟩ | ⟨he, -⟩ | ⟨he, -⟩ := raises_cases h
  · obtain ⟨hn, -⟩ | ⟨-, -, he⟩ := modinv_eq_error_iff.mp hm
    · exact ⟨a, n, rfl, hn⟩
    · cases he
  · obtain ⟨-, -, he⟩ | ⟨-, -, he⟩ := makeKey_eq_error_iff.mp hk <;> cases he
  · cases he
  · cases he

/-! ### The state after an error (R75, R82) -/

/-- R66, R82: a SETKEY that answers an error empties the key slot. -/
theorem key_none_of_setkey_error {a b n : Word} {s t : State} {r : Response} {e : Err}
    (ht : exec (.setkey a b n) s = .next t) (hr : respOut t = some r) (he : r.status = .err e) : t.key = none := by
  obtain ⟨e', h⟩ | ⟨k, -, -, -, -, h⟩ := exec_setkey_cases a b n
  · cases ht.symm.trans (h s)
    rfl
  · cases ht.symm.trans (h s)
    cases hr
    cases he

/-- Settles O38: `cnt` and `res` by the form of every response (R48), the rest by the frame of every command (O39), but
for the slot after a SETKEY. -/
theorem errorsWriteNothingButAFailedSetkey : Obligations.ErrorsWriteNothingButAFailedSetkey := by
  unfold Obligations.ErrorsWriteNothingButAFailedSetkey
  intro i s t r e ht hr he
  obtain ⟨-, hedges, hdelivered, hkey⟩ := commandsChangeOnlyTheResponseAndSetkeyTheSlot i s t ht
  have hanswer : answerOf i s = some r := by rwa [answerOf, ht]
  obtain ⟨herr, -, hzero⟩ := responseValid_of_answerOf hanswer
  have hcnt : r.cnt = 0#3 := herr (by rw [he]; exact nofun)
  refine ⟨hcnt, hzero hcnt, hedges, hdelivered, ?_⟩
  cases hi : isSetkey i with
  | false => exact hkey hi
  | true =>
    obtain ⟨a, b, n, rfl⟩ := isSetkey_eq_true_iff.mp hi
    exact key_none_of_setkey_error ht hr he

/-! ### The edges at which nothing is executed (R86, R91) -/

section
variable {s : State}

/-- R91: without `rst` an idle block looks for a command to accept. -/
theorem step_idle (hr : s.edge.rst = false) (hp : s.phase = .idle) : step s = .next (accept s.edge s.tick) := by
  simp [step, hr, hp]

/-- R94: without `rst` a command in progress that stalls only lets the edge pass. -/
theorem step_stalled (hr : s.edge.rst = false) {cmd : Cmd} (hp : s.phase = .executing cmd)
    (hs : s.edge.stall = true) : step s = .next s.tick := by
  simp [step, hr, hp, hs]

/-- R91: without `rst` a waiting response is offered. -/
theorem step_responding (hr : s.edge.rst = false) {r : Response} (hp : s.phase = .responding r) :
    step s = .next (offer s.edge r s.tick) := by
  simp [step, hr, hp]

/-- R91: a command that is presented is accepted. -/
theorem accept_of_cmdValid {e : Edge} (h : e.cmdValid = true) : accept e s = s.withPhase (.executing e.cmd) :=
  if_pos h

/-- R91: where no command is presented, none is accepted. -/
theorem accept_of_not_cmdValid {e : Edge} (h : e.cmdValid = false) : accept e s = s :=
  if_neg (Bool.eq_false_iff.mp h)

/-- R91 (d): a response that is not taken holds. -/
theorem offer_of_not_respReady {e : Edge} {r : Response} (h : e.respReady = false) : offer e r s = s :=
  if_neg (Bool.eq_false_iff.mp h)

end

/-- Settles O49: an edge at each phase of the block, by what it accepts or delivers there. -/
theorem nothingHappensButACommandOrAReset : Obligations.NothingHappensButACommandOrAReset := by
  unfold Obligations.NothingHappensButACommandOrAReset
  intro s hr
  refine ⟨fun hp hv => ?_, fun hp hv => ?_, fun cmd hp hs => step_stalled hr hp hs, fun r hp hready => ?_⟩
  · rw [step_idle hr hp, accept_of_not_cmdValid hv]
  · rw [step_idle hr hp, accept_of_cmdValid hv]
  · rw [step_responding hr hp, offer_of_not_respReady hready]

end Sys2Proof.Machine
end

section
/-! PROOFS of the family 70_reset_and_hazards.md: reset (R89), the guarantees of the ready/valid handshake (R91), and
what becomes of an accepted command, from its acceptance to its response or to the reset that abandons it (R89, R93). -/

namespace Sys2Proof.Machine

/-- Settles O45: `step_of_rst`, with the fields of the state that reset leaves written out. -/
theorem resetClearsTheKeyAndAbandonsTheCommand : Obligations.ResetClearsTheKeyAndAbandonsTheCommand := by
  unfold Obligations.ResetClearsTheKeyAndAbandonsTheCommand
  intro s hr
  exact step_of_rst hr

/-! ### The handshake at one step (R91) -/

section
variable {s t : State}

/-- R91 (a): `cmd_ready` is high when nothing is in progress and no response waits. -/
@[simp] theorem cmdReady_eq_true_iff : cmdReady s = true ↔ s.phase = .idle := by
  unfold cmdReady
  cases s.phase <;> simp

/-- R91 (a): `cmd_ready` is low while a command is in progress or a response waits. -/
@[simp] theorem cmdReady_eq_false_iff : cmdReady s = false ↔ s.phase ≠ .idle := by
  rw [← Bool.not_eq_true, cmdReady_eq_true_iff]

/-- R91: the response on the port is the one that waits. -/
@[simp] theorem respOut_eq_some_iff {r : Response} : respOut s = some r ↔ s.phase = .responding r := by
  unfold respOut
  cases s.phase <;> simp

/-- R91: acceptance delivers nothing. -/
@[simp] theorem accept_delivered (e : Edge) (s : State) : (accept e s).delivered = s.delivered := by
  obtain ⟨-, h⟩ | ⟨-, h⟩ := accept_cases e s <;> rw [h]
  rfl

/-- R91 (d): a response that is taken is delivered. -/
theorem offer_of_respReady {e : Edge} {r : Response} (h : e.respReady = true) : offer e r s = deliver r s :=
  if_pos h

/-- The execution of a command leaves its response waiting and delivers nothing. -/
theorem responding_of_executeCommand {cmd : Cmd} (h : executeCommand cmd s = .next t) :
    (∃ r, t.phase = .responding r) ∧ t.delivered = s.delivered := by
  obtain ⟨k, r, hshape⟩ := executeCommand_shape cmd s
  cases h.symm.trans hshape
  exact ⟨⟨r, rfl⟩, rfl⟩

/-- R91 (a), (d): a command in progress after an edge was in progress and stalled, or was accepted there. -/
theorem executing_after_step {cmd : Cmd} (ht : step s = .next t) (hp : t.phase = .executing cmd) :
    (s.phase = .executing cmd ∧ s.edge.stall = true) ∨
    (s.phase = .idle ∧ s.edge.rst = false ∧ s.edge.cmdValid = true ∧ s.edge.cmd = cmd) := by
  obtain ⟨-, rfl⟩ | ⟨hr, hs, rfl⟩ | ⟨_, -, -, hstall, rfl⟩ | ⟨_, -, -, -, hcmd⟩ | ⟨r, -, hs, rfl⟩ := step_cases ht
  · cases hp
  · obtain ⟨hv, h⟩ | ⟨-, h⟩ := accept_cases s.edge s.tick <;> rw [h] at hp
    · cases hp
      exact .inr ⟨hs, hr, hv, rfl⟩
    · cases hs.symm.trans hp
  · exact .inl ⟨hp, hstall⟩
  · obtain ⟨⟨_, h⟩, -⟩ := responding_of_executeCommand hcmd
    cases h.symm.trans hp
  · obtain ⟨-, h⟩ | ⟨-, h⟩ := offer_cases s.edge r s.tick <;> rw [h] at hp
    · cases hp
    · cases hs.symm.trans hp

/-- R91 (c), (d): an edge delivers nothing, or the waiting response, which the host takes there. -/
theorem delivered_after_step (ht : step s = .next t) :
    t.delivered = s.delivered ∨
    ∃ r, s.phase = .responding r ∧ s.edge.rst = false ∧ s.edge.respReady = true ∧
      t.delivered = s.delivered ++ [r] ∧ t.phase = .idle := by
  obtain ⟨-, rfl⟩ | ⟨-, -, rfl⟩ | ⟨_, -, -, -, rfl⟩ | ⟨_, -, -, -, hcmd⟩ | ⟨r, hr, hs, rfl⟩ := step_cases ht
  · exact .inl rfl
  · exact .inl (accept_delivered s.edge s.tick)
  · exact .inl rfl
  · obtain ⟨-, h⟩ := responding_of_executeCommand hcmd
    exact .inl h
  · obtain ⟨hready, h⟩ | ⟨-, h⟩ := offer_cases s.edge r s.tick <;> rw [h]
    · exact .inr ⟨r, hs, hr, hready, rfl, rfl⟩
    · exact .inl rfl

/-- R91 (b), (d): a response that waits after an edge waited and was not taken, or is that of the command which
completed there; after a reset none waits (log entry 4). -/
theorem responding_after_step {r : Response} (ht : step s = .next t) (hp : t.phase = .responding r) :
    s.edge.rst = false ∧
      ((s.phase = .responding r ∧ s.edge.respReady = false) ∨
        ∃ cmd, s.phase = .executing cmd ∧ s.edge.stall = false ∧ executeCommand cmd s.tick = .next t) := by
  obtain ⟨-, rfl⟩ | ⟨-, hs, rfl⟩ | ⟨_, -, hs, -, rfl⟩ | ⟨cmd, hr, hs, hstall, hcmd⟩ | ⟨r', hr, hs, rfl⟩ :=
    step_cases ht
  · cases hp
  · obtain ⟨-, h⟩ | ⟨-, h⟩ := accept_cases s.edge s.tick <;> rw [h] at hp
    · cases hp
    · cases hs.symm.trans hp
  · cases hs.symm.trans hp
  · exact ⟨hr, .inr ⟨cmd, hs, hstall, hcmd⟩⟩
  · obtain ⟨-, h⟩ | ⟨hready, h⟩ := offer_cases s.edge r' s.tick <;> rw [h] at hp
    · cases hp
    · exact ⟨hr, .inl ⟨hp, hready⟩⟩

/-- R91 (d): a response that is not taken only lets the edge pass. -/
theorem step_waiting (hr : s.edge.rst = false) {r : Response} (hp : s.phase = .responding r)
    (hready : s.edge.respReady = false) : step s = .next s.tick := by
  rw [step_responding hr hp, offer_of_not_respReady hready]

/-- R91 (d): a response that is taken is delivered. -/
theorem step_delivering (hr : s.edge.rst = false) {r : Response} (hp : s.phase = .responding r)
    (hready : s.edge.respReady = true) : step s = .next (deliver r s.tick) := by
  rw [step_responding hr hp, offer_of_respReady hready]

end

/-- Settles O47: where a command in progress, a delivery and a waiting response come from, by the cases of a step; what
becomes of a waiting response, by `step_waiting` and `step_delivering`. -/
theorem theHandshakeKeepsItsGuarantees : Obligations.TheHandshakeKeepsItsGuarantees := by
  unfold Obligations.TheHandshakeKeepsItsGuarantees
  intro s t ht
  simp only [cmdReady_eq_true_iff, cmdReady_eq_false_iff, respOut_eq_some_iff]
  refine ⟨fun cmd hp => executing_after_step ht hp, delivered_after_step ht, fun r hp hr hready => ?_,
    fun r hp hr hready => ?_, fun r hp => responding_after_step ht hp⟩
  · cases ht.symm.trans (step_waiting hr hp hready)
    exact ⟨hp, by simp [hp]⟩
  · cases ht.symm.trans (step_delivering hr hp hready)
    exact ⟨rfl, rfl⟩

/-! ### Runs of an accepted command (R89, R91, R93) -/

/-- The first of several steps of a machine. -/
theorem run_succ_of_core_step {M : Host.Core} {s t : M.State} (h : M.step s = .next t) (n : Nat) :
    M.run (n + 1) s = M.run n t := by
  rw [Host.Core.run, h]

/-- The first of several steps. -/
theorem run_succ {s t : State} (h : step s = .next t) (n : Nat) :
    Host.Core.run core (n + 1) s = Host.Core.run core n t :=
  run_succ_of_core_step (M := core) h n

/-- Edges at which a block in phase `p` only lets the edge pass are used up, and change nothing else. -/
theorem run_idling {p : Phase} {passing rest : List Edge}
    (hpass : ∀ e ∈ passing, ∀ u : State, u.phase = p → u.edge = e → step u = .next u.tick) (n : Nat)
    (s : State) (hp : s.phase = p) (hedges : s.edges = passing ++ rest) :
    Host.Core.run core (passing.length + n) s = Host.Core.run core n { s with edges := rest } := by
  induction passing generalizing s with
  | nil =>
    rw [List.nil_append] at hedges
    rw [← hedges, List.length_nil, Nat.zero_add]
  | cons e es ih =>
    have hedge : s.edge = e := by rw [State.edge, hedges]; rfl
    have htail : s.tick.edges = es ++ rest := by rw [tick_edges, hedges]; rfl
    have hstep : step s = .next s.tick := hpass e List.mem_cons_self s hp hedge
    rw [List.length_cons, Nat.add_right_comm, run_succ hstep]
    exact ih (fun e' he' => hpass e' (List.mem_cons_of_mem e he')) s.tick hp htail

/-- R94: a command in progress stays in progress over any number of stalled edges. -/
theorem run_stalled {cmd : Cmd} {stalls rest : List Edge} (h : ∀ e ∈ stalls, e.rst = false ∧ e.stall = true)
    (n : Nat) (k : Option Key) (out : List Response) :
    Host.Core.run core (stalls.length + n) ⟨k, .executing cmd, stalls ++ rest, out⟩ =
      Host.Core.run core n ⟨k, .executing cmd, rest, out⟩ := by
  refine run_idling (p := .executing cmd) (fun e he u hp hedge => ?_) n _ rfl rfl
  obtain ⟨hr, hs⟩ := h e he
  subst hedge
  exact step_stalled hr hp hs

/-- R91 (d): a response holds steady over any number of edges at which the host does not take it. -/
theorem run_waiting {r : Response} {waits rest : List Edge} (h : ∀ e ∈ waits, e.rst = false ∧ e.respReady = false)
    (n : Nat) (k : Option Key) (out : List Response) :
    Host.Core.run core (waits.length + n) ⟨k, .responding r, waits ++ rest, out⟩ =
      Host.Core.run core n ⟨k, .responding r, rest, out⟩ := by
  refine run_idling (p := .responding r) (fun e he u hp hedge => ?_) n _ rfl rfl
  obtain ⟨hr, hready⟩ := h e he
  subst hedge
  exact step_waiting hr hp hready

/-- R91 (a), R94: a command is accepted and stays in progress while it stalls. -/
theorem run_accepted {s : State} {first : Edge} {stalls rest : List Edge} (hp : s.phase = .idle)
    (hedges : s.edges = first :: (stalls ++ rest)) (hr : first.rst = false) (hv : first.cmdValid = true)
    (hstalls : ∀ e ∈ stalls, e.rst = false ∧ e.stall = true) (n : Nat) :
    Host.Core.run core (stalls.length + n + 1) s =
      Host.Core.run core n ⟨s.key, .executing first.cmd, rest, s.delivered⟩ := by
  have hedge : s.edge = first := by rw [State.edge, hedges]; rfl
  have hstep : step s = .next ⟨s.key, .executing first.cmd, stalls ++ rest, s.delivered⟩ := by
    rw [step_idle (hedge ▸ hr) hp, hedge, accept_of_cmdValid hv, State.tick, hedges]
    rfl
  rw [run_succ hstep, run_stalled hstalls]

/-- Settles O46: the command is in progress (`run_accepted`) when the reset comes. -/
theorem anAbandonedCommandHasNoEffect : Obligations.AnAbandonedCommandHasNoEffect := by
  unfold Obligations.AnAbandonedCommandHasNoEffect
  intro s first rstEdge stalls rest hp hedges hr hv hstalls hrst
  have hreset : step ⟨s.key, .executing first.cmd, rstEdge :: rest, s.delivered⟩ =
      .next ⟨none, .idle, rest, s.delivered⟩ := step_of_rst hrst
  rw [run_accepted hp hedges hr hv hstalls 1]
  exact run_succ hreset 0

/-- R16: what a command as presented does is a function of the key slot: the new slot and the response. -/
theorem executeCommand_of_slot (cmd : Cmd) (slot : Option Key) :
    ∃ k r, ∀ s, s.key = slot → executeCommand cmd s = .next ((s.withKey k).withPhase (.responding r)) := by
  cases hd : decode cmd with
  | error e =>
    refine ⟨slot, ⟨.err .illegalCommand, 0#3, 0#32⟩, fun s hs => ?_⟩
    subst hs
    exact executeCommand_of_reject hd s
  | ok i =>
    obtain ⟨k, r, -, -, -, hexec⟩ := exec_of_slot i slot
    exact ⟨k, r, fun s hs => (executeCommand_of_decode hd s).trans (hexec s hs)⟩

/-- Settles O48: the command is in progress (`run_accepted`), completes as it would have at once, since only the key
slot matters (`executeCommand_of_slot`), waits (`run_waiting`) and is delivered. -/
theorem everyAcceptedCommandIsAnsweredOnce : Obligations.EveryAcceptedCommandIsAnsweredOnce := by
  unfold Obligations.EveryAcceptedCommandIsAnsweredOnce
  intro s first done last stalls waits rest hp hedges hr hv hstalls hdone hstall hwaits hlast hready
  obtain ⟨k, r, hexec⟩ := executeCommand_of_slot first.cmd s.key
  refine ⟨k, r, hexec s rfl, ?_⟩
  have hcomplete : step ⟨s.key, .executing first.cmd, done :: (waits ++ last :: rest), s.delivered⟩ =
      .next ⟨k, .responding r, waits ++ last :: rest, s.delivered⟩ :=
    (step_executing (s := ⟨_, _, done :: _, _⟩) rfl hdone hstall).trans (hexec _ rfl)
  have hdeliver : step ⟨k, .responding r, last :: rest, s.delivered⟩ =
      .next ⟨k, .idle, rest, s.delivered ++ [r]⟩ := step_delivering (s := ⟨_, _, last :: _, _⟩) hlast rfl hready
  calc Host.Core.run core (stalls.length + waits.length + 3) s
    _ = Host.Core.run core (stalls.length + (waits.length + 2) + 1) s :=
      congrArg (Host.Core.run core · s) (by omega)
    _ = Host.Core.run core (waits.length + 2)
          ⟨s.key, .executing first.cmd, done :: (waits ++ last :: rest), s.delivered⟩ :=
      run_accepted hp hedges hr hv hstalls _
    _ = Host.Core.run core (waits.length + 1) ⟨k, .responding r, waits ++ last :: rest, s.delivered⟩ :=
      run_succ hcomplete _
    _ = Host.Core.run core 1 ⟨k, .responding r, last :: rest, s.delivered⟩ := run_waiting hwaits 1 k s.delivered
    _ = .next ⟨k, .idle, rest, s.delivered ++ [r]⟩ := run_succ hdeliver 0

end Sys2Proof.Machine
end
